-- ==== Sys2Proof/Word.lean ====
section
/-! DEFINITION. The word types of B64CORE (spec/00_scope.md R5, R6): every value is an unsigned
number of a stated width. -/

namespace Sys2Proof

/-- A raw byte, a character cell or a lane of a command word: 8 bits (R5 `BYTEW`, `CHARW`). -/
abbrev Byte := BitVec 8

/-- A symbol value 0..63: 6 bits (R5 `SYMW`). -/
abbrev Sym := BitVec 6

/-- A command word or a result word: 40 bits (R5 `CWW`, `RWW`). -/
abbrev Word40 := BitVec 40

/-- The width of `ILEN`, `POS`, `OLEN`: 32 bits (R5 `LENW`). -/
abbrev Len := BitVec 32

/-- `ceil(n / 3)`, the number of encode blocks of a message of `n` bytes (R5, R96). -/
def ceilThird (n : Nat) : Nat := (n + 2) / 3

end Sys2Proof
end

