-- ==== Sys2Proof/Config.lean ====
section
/-! DEFINITION. What an implementation of B64CORE fixes: the open parameter `MAXLEN`
(spec/00_scope.md R5, spec/92_eei_decisions.md D9). -/

namespace Sys2Proof

/-- The parameters of one B64CORE. `MAXLEN` is OPEN in the spec (R5, U9): it is carried as data, and
statements hold for every legal value. -/
structure Config where
  /-- the largest message length in cells that a command may name -/
  maxLen : Nat
  deriving DecidableEq, Repr

/-- `OCAP = 4 * ceil(MAXLEN / 3)`, the capacity of `OBUF` in cells (R5, R32). -/
def Config.ocap (c : Config) : Nat := 4 * ceilThird c.maxLen

/-- The constraint of R5 on the open parameter: `1 <= MAXLEN` and `OCAP <= 2^32 - 1`. -/
abbrev Config.Legal (c : Config) : Prop := 1 ≤ c.maxLen ∧ c.ocap ≤ 2 ^ 32 - 1

/-- DESIGN CHOICE (log entry 1; not the spec's): the parameter of `State.reset`, the largest one
R5 admits, so that the fewest commands are refused. No statement rests on this value. -/
def Config.largest : Config := { maxLen := 3221225469 }

end Sys2Proof
end

