-- ==== Sys2Proof/Syntax.lean ====
section
/-! DEFINITION. The nine commands of spec/30_encoding.md R52 with their operands as they stand in
the command word (R53, R54), and the reasons for which a command word is reserved (R55). -/

namespace Sys2Proof

/-- A command with its operands: one constructor per row of spec/opcode_table.json. Absent lanes
keep their bits, which are ignored (R56), so that no bit of a word is lost. -/
inductive Instr where
  /-- `CHARFOR v8` (R71) -/
  | charfor (v8 : Byte)
  /-- `VALUEFOR c` (R72) -/
  | valuefor (c : Byte)
  /-- `PADCHAR` (R73) -/
  | padchar
  /-- `GATHER`: `n` present byte lanes of three (R80) -/
  | gather (n : BitVec 2) (b0 b1 b2 : Byte)
  /-- `SCATTER`: `m` present symbol lanes of four (R83); a lane is all its 8 bits -/
  | scatter (m : BitVec 3) (l0 l1 l2 l3 : Byte)
  /-- `ENCBLK`: `n` present byte lanes of three (R90) -/
  | encblk (n : BitVec 2) (b0 b1 b2 : Byte)
  /-- `DECBLK`, or `DECBLK.F` when `final` (R100) -/
  | decblk (final : Bool) (c0 c1 c2 c3 : Byte)
  /-- `ENCODE len` (R92) -/
  | encode (len : Len)
  /-- `DECODE len` (R108) -/
  | decode (len : Len)
  deriving DecidableEq, Repr

/-- Why a command word is reserved, whatever `MAXLEN` is: R55 (a) to (e). -/
inductive Reserved where
  /-- R55 (a): `op` is one of 0x3, 0x6, 0x7, 0xA, 0xB, 0xE, 0xF -/
  | unassignedOp
  /-- R55 (b): a must-be-zero bit under the command's `mask` is 1 -/
  | mustBeZero
  /-- R55 (c): `n = 0` in `GATHER` or `ENCBLK` -/
  | emptyGroup
  /-- R55 (d): `m` is 0, 1, 5, 6 or 7 in `SCATTER` -/
  | symbolCount
  /-- R55 (e): a present lane of `SCATTER` has a non-zero top 2 bits -/
  | symbolTopBits
  deriving DecidableEq, Repr

end Sys2Proof
end

