-- ==== Sys2Proof/WellFormed.lean ====
section
/-! DEFINITION. Which terms of `Instr` are commands: the operand constraints of
spec/30_encoding.md R53, R55 (c) to (e). The bound `len <= MAXLEN` (R55 (f)) depends on the
parameter and is checked where a command is taken (Machine/Ops.lean, `takeCommand`). -/

namespace Sys2Proof

/-- The top 2 bits of a symbol lane are 0 (R54). -/
def laneIsSymbol (l : Byte) : Bool := l.toNat < 64

/-- `n` counts the present byte lanes: 1, 2 or 3 (R53). -/
def illFormedGroup (n : BitVec 2) : Option Reserved :=
  if n = 0 then some .emptyGroup else none

/-- `m` counts the present symbol lanes: 2, 3 or 4, each with its top bits 0 (R53). -/
def illFormedSymbols (m : BitVec 3) (l0 l1 l2 l3 : Byte) : Option Reserved :=
  if m.toNat < 2 ∨ 4 < m.toNat then some .symbolCount
  else if ([l0, l1, l2, l3].take m.toNat).all laneIsSymbol then none
  else some .symbolTopBits

/-- The reason for which the term stands for no admitted command word, if there is one. -/
def Instr.illFormed : Instr → Option Reserved
  | .charfor _ => none
  | .valuefor _ => none
  | .padchar => none
  | .gather n _ _ _ => illFormedGroup n
  | .scatter m l0 l1 l2 l3 => illFormedSymbols m l0 l1 l2 l3
  | .encblk n _ _ _ => illFormedGroup n
  | .decblk _ _ _ _ _ => none
  | .encode _ => none
  | .decode _ => none

/-- The term is a command whose operands meet the constraints of R53. -/
def Instr.wf (i : Instr) : Bool := i.illFormed.isNone

end Sys2Proof
end

