-- ==== Sys2Proof/Decode.lean ====
section
/-! DEFINITION. The decoder and the encoder of the 40-bit command word (spec/30_encoding.md
R50, R52, R53, R55, R56). Decoding is total; a reserved word is rejected with its reason. -/

namespace Sys2Proof

/-! ## Fields of the command word (R50) -/

/-- `CW[39:36]`, the operation code. -/
def opOf (w : Word40) : BitVec 4 := w.extractLsb' 36 4

/-- `CW[31:24]` -/
def lane0 (w : Word40) : Byte := w.extractLsb' 24 8

/-- `CW[23:16]` -/
def lane1 (w : Word40) : Byte := w.extractLsb' 16 8

/-- `CW[15:8]` -/
def lane2 (w : Word40) : Byte := w.extractLsb' 8 8

/-- `CW[7:0]` -/
def lane3 (w : Word40) : Byte := w.extractLsb' 0 8

/-- `CW[33:32]`, the count `n` of `GATHER` and `ENCBLK` (R53). -/
def countN (w : Word40) : BitVec 2 := w.extractLsb' 32 2

/-- `CW[34:32]`, the count `m` of `SCATTER` (R53). -/
def countM (w : Word40) : BitVec 3 := w.extractLsb' 32 3

/-- `CW[32]`, the `final` flag of `DECBLK` (R53). -/
def finalBit (w : Word40) : Bool := w.getLsbD 32

/-- `CW[31:0]`, the length of a message command (R53). -/
def lenOf (w : Word40) : Len := w.extractLsb' 0 32

/-! ## The rows of R53 -/

/-- One row of R53: `w` selects the command when `w & mask = pattern`. -/
structure Row where
  pattern : Word40
  mask : Word40
  deriving DecidableEq, Repr

def charforRow : Row := { pattern := 0x0000000000, mask := 0xFFFFFFFF00 }
def valueforRow : Row := { pattern := 0x1000000000, mask := 0xFFFFFFFF00 }
def padcharRow : Row := { pattern := 0x2000000000, mask := 0xFFFFFFFFFF }
def gatherRow : Row := { pattern := 0x4000000000, mask := 0xFC000000FF }
def scatterRow : Row := { pattern := 0x5000000000, mask := 0xF800000000 }
def encblkRow : Row := { pattern := 0x8000000000, mask := 0xFC000000FF }
def decblkRow : Row := { pattern := 0x9000000000, mask := 0xFE00000000 }
def encodeRow : Row := { pattern := 0xC000000000, mask := 0xFF00000000 }
def decodeRow : Row := { pattern := 0xD000000000, mask := 0xFF00000000 }

/-- The nine rows, in the order of R53. -/
def rows : List Row :=
  [charforRow, valueforRow, padcharRow, gatherRow, scatterRow, encblkRow, decblkRow, encodeRow,
    decodeRow]

/-- `w` matches the row: every bit under the mask is as the pattern says (R53). -/
def Row.selects (r : Row) (w : Word40) : Bool := w &&& r.mask == r.pattern

/-- The row of a command. -/
def rowOf : Instr → Row
  | .charfor _ => charforRow
  | .valuefor _ => valueforRow
  | .padchar => padcharRow
  | .gather _ _ _ _ => gatherRow
  | .scatter _ _ _ _ _ => scatterRow
  | .encblk _ _ _ _ => encblkRow
  | .decblk _ _ _ _ _ => decblkRow
  | .encode _ => encodeRow
  | .decode _ => decodeRow

/-! ## Decoding -/

/-- A word whose `op` is that of the row: the must-be-zero bits under the mask are checked
(R55 (b)), then the constraints on the operands (R55 (c) to (e)). -/
def decodeAs (r : Row) (w : Word40) (i : Instr) : Except Reserved Instr :=
  if r.selects w then
    match i.illFormed with
    | some reason => .error reason
    | none => .ok i
  else .error .mustBeZero

/-- The command a word stands for, or the reason for which it is reserved (R52, R53, R55). -/
def decode (w : Word40) : Except Reserved Instr :=
  match (opOf w).toNat with
  | 0x0 => decodeAs charforRow w (.charfor (lane3 w))
  | 0x1 => decodeAs valueforRow w (.valuefor (lane3 w))
  | 0x2 => decodeAs padcharRow w .padchar
  | 0x4 => decodeAs gatherRow w (.gather (countN w) (lane0 w) (lane1 w) (lane2 w))
  | 0x5 => decodeAs scatterRow w (.scatter (countM w) (lane0 w) (lane1 w) (lane2 w) (lane3 w))
  | 0x8 => decodeAs encblkRow w (.encblk (countN w) (lane0 w) (lane1 w) (lane2 w))
  | 0x9 => decodeAs decblkRow w (.decblk (finalBit w) (lane0 w) (lane1 w) (lane2 w) (lane3 w))
  | 0xC => decodeAs encodeRow w (.encode (lenOf w))
  | 0xD => decodeAs decodeRow w (.decode (lenOf w))
  | _ => .error .unassignedOp

/-! ## Encoding -/

/-- A word in format S, Z or B: `op`, `aux` and the four lanes (R50). -/
def laneWord (op aux : BitVec 4) (l0 l1 l2 l3 : Byte) : Word40 :=
  op ++ aux ++ l0 ++ l1 ++ l2 ++ l3

/-- A word in format M: `op`, `aux = 0` and the length (R50). -/
def messageWord (op : BitVec 4) (len : Len) : Word40 := op ++ 0#4 ++ len

/-- The command word of a command (R50, R53). -/
def encode : Instr → Word40
  | .charfor v8 => laneWord 0x0 0 0 0 0 v8
  | .valuefor c => laneWord 0x1 0 0 0 0 c
  | .padchar => laneWord 0x2 0 0 0 0 0
  | .gather n b0 b1 b2 => laneWord 0x4 (n.setWidth 4) b0 b1 b2 0
  | .scatter m l0 l1 l2 l3 => laneWord 0x5 (m.setWidth 4) l0 l1 l2 l3
  | .encblk n b0 b1 b2 => laneWord 0x8 (n.setWidth 4) b0 b1 b2 0
  | .decblk final c0 c1 c2 c3 => laneWord 0x9 (if final then 1 else 0) c0 c1 c2 c3
  | .encode len => messageWord 0xC len
  | .decode len => messageWord 0xD len

/-! ## The words of spec/opcode_table.json -/

/-- The command word whose low `nbits` bits are those of `w` and whose other bits are 0: a command
is exactly one 40-bit word (R50). -/
def tableWord (nbits w : Nat) : Word40 := BitVec.ofNat 40 (w % 2 ^ nbits)

/-- The command this decoder reads from a row's word; `none` where it rejects, and where the row is
wider than a command word. -/
def decodeTableWord (nbits w : Nat) : Option Instr :=
  if nbits ≤ 40 then (decode (tableWord nbits w)).toOption else none

end Sys2Proof
end

