-- ==== Sys2Proof/Machine/State.lean ====
section
/-! DEFINITION. The state of B64CORE (spec/10_state.md R15, R20, R24), the moves of its host
(spec/30_encoding.md R59, spec/70_reset_and_hazards.md R146), what the block answers
(spec/30_encoding.md R51, R62), and the reasons for which a step stops. -/

namespace Sys2Proof.Machine

/-- `STATUS` (R15, R16): the four legal values of its 2-bit field are all its values. -/
inductive Status where
  /-- 0: since reset no message command has been accepted -/
  | idle
  /-- 1: a run is in progress -/
  | busy
  /-- 2: the last run ended with success -/
  | doneOk
  /-- 3: the last run ended with `InvalidInput` -/
  | doneErr
  deriving DecidableEq, Repr

/-- `MODE` (R15, R17): 0 `ENC`, 1 `DEC`. -/
inductive Mode where
  | enc
  | dec
  deriving DecidableEq, Repr

/-- The cells of a buffer that hold a value, as (index, byte) pairs in strictly rising index. A cell
that is not listed holds no value (R21, R24). -/
abbrev Memory := List Host.Cell

/-- The canonical form: indices strictly rise. An unlisted cell holds no value, so no entry can
equal what an unlisted cell reads as. -/
abbrev Memory.wf (m : Memory) : Prop := m.Pairwise (fun a b => a.1 < b.1)

/-- The result of a command: a success with its value, or `Fail`, which carries none (R7, R51, U5).
A lane that is absent has no value and is not in the list (R62, R81, R84). -/
inductive Result where
  /-- a character: `CHARFOR`, `PADCHAR` -/
  | char (c : Byte)
  /-- a symbol value: `VALUEFOR` -/
  | value (v : Sym)
  /-- the present fields of `GATHER`, `f0` first -/
  | fields (fs : List Sym)
  /-- the bytes produced by `SCATTER` or `DECBLK`, `y0` first -/
  | bytes (ys : List Byte)
  /-- the four characters of `ENCBLK`, `ch0` first -/
  | chars (cs : List Byte)
  /-- `OLEN` at the `DONE_OK` of `ENCODE` or `DECODE` -/
  | length (olen : Len)
  /-- `Fail` -/
  | fail
  deriving DecidableEq, Repr

/-- What a step delivers to the host. -/
inductive Reply where
  /-- a command's result (R51) -/
  | result (r : Result)
  /-- the cell of `OBUF` that `HRD` reads (R59) -/
  | cell (b : Byte)
  /-- the five registers that `HST` reads, as bits (R15, R59) -/
  | registers (status : BitVec 2) (mode : BitVec 1) (ilen pos olen : Len)
  deriving DecidableEq, Repr

/-- One move of the host: presenting a command word, the host actions of R59, doing nothing, and
asserting reset (R140, R146). -/
inductive HostAction where
  /-- present a command word -/
  | present (cw : Word40)
  /-- `HWR i, b` -/
  | writeCell (i : Nat) (b : Byte)
  /-- `HRD i` -/
  | readCell (i : Nat)
  /-- `HST` -/
  | readRegisters
  /-- `WAIT`: `HST` until `STATUS != BUSY` -/
  | wait
  /-- no move for one step: the sequencer takes its enabled step, if there is one -/
  | idle
  /-- assert reset -/
  | reset
  deriving DecidableEq, Repr

/-- The state. `cfg`, `host` and `reply` are the model's own fields (log entries 1, 2, 3). -/
structure State where
  /-- the open parameter (R5), which no step changes -/
  cfg : Config
  /-- CR0 `STATUS` -/
  status : Status
  /-- CR1 `MODE` -/
  mode : Mode
  /-- CR2 `ILEN` -/
  ilen : Len
  /-- CR3 `POS` -/
  pos : Len
  /-- CR4 `OLEN` -/
  olen : Len
  /-- the input buffer -/
  ibuf : Memory
  /-- the output buffer; what the host may see of it is `State.obufValue` (R21) -/
  obuf : Memory
  /-- the host's coming moves, the next one first: the outside world, no queue of the block -/
  host : List HostAction
  /-- what the last step delivered to the host -/
  reply : Option Reply
  deriving DecidableEq, Repr

/-- The state right after reset (R24, R140), of a block with the parameter `Config.largest`
(log entry 1) and a host that has no move to make (log entry 2). -/
def State.reset : State :=
  { cfg := Config.largest
    status := .idle
    mode := .enc
    ilen := 0
    pos := 0
    olen := 0
    ibuf := []
    obuf := []
    host := []
    reply := none }

/-- Why a step stops with a fault. -/
inductive Fault where
  /-- A block step of either direction reads an `IBUF` cell that holds no value (R144, U2). Safe: the
  hardware has no defined behaviour there. -/
  | unwrittenCell
  /-- The host writes `IBUF[i]` with `i >= MAXLEN`, a cell that does not exist (R38). Safe. -/
  | noSuchCell
  /-- `MemRead` beyond `ILEN` by a block step (R33). Safe: no state that a run reaches raises it. -/
  | readPastMessage
  /-- `MemWrite` beyond `OCAP` by a block step (R32). Safe: no state that a run reaches raises it. -/
  | writePastBuffer
  /-- The sequencer at `BUSY` with `POS > ILEN`, where no step is enabled (R14, R99). Safe: no state
  that a run reaches raises it. -/
  | noStepEnabled
  deriving DecidableEq, Repr

/-- Why a step refuses the host's move. -/
inductive Refusal where
  /-- The command has no meaning in the model; raised only by an arm of `exec`. Safe. -/
  | notModelled (mnemonic : String)
  /-- A reserved command word is presented, R55 (a) to (e) (U1). Safe. -/
  | reserved (why : Reserved)
  /-- `ENCODE` or `DECODE` with `len > MAXLEN`, R55 (f) (U1). Safe. -/
  | lengthAboveMaxlen
  /-- A command is presented while `STATUS = BUSY`, R145 (a) (U4). Safe. -/
  | commandWhileBusy
  /-- The host writes `IBUF` while `STATUS = BUSY`, R145 (b) (U4). Safe. -/
  | writeWhileBusy
  /-- The host reads `OBUF` while `STATUS = BUSY`, R145 (c) (U4). Safe. -/
  | readWhileBusy
  /-- The host reads an `OBUF` cell that holds no value while not `BUSY` (R21, U3). Safe. -/
  | cellHoldsNoValue
  deriving DecidableEq, Repr

/-- The outcome of a step of this machine. -/
abbrev StepResult := Host.Outcome State Fault Refusal

end Sys2Proof.Machine
end

