-- ==== Sys2Proof/Machine/Operands.lean ====
section
/-! DEFINITION. The operand forms of spec/30_encoding.md R53, R54, R56 and the lanes of
spec/10_state.md R10, R11: which lanes of a command are present, and what stands in for an absent
one. -/

namespace Sys2Proof.Machine

/-- Lane `i` of a block, lane 0 first; an absent lane is taken as 0 by the formulas (R56, R88). -/
def byteLane (bs : List Byte) (i : Nat) : Byte := bs.getD i 0

/-- Symbol lane `i`; an absent lane is taken as 0 by the formulas and never emitted (R83, R88). -/
def symLane (vs : List Sym) (i : Nat) : Sym := vs.getD i 0

/-- The symbol value operand of a `SCATTER` lane, `vi = Li[5:0]` (R53, R54). -/
def laneSymbol (l : Byte) : Sym := l.setWidth 6

/-- The length operand of a message command; the other commands name no message (R54). -/
def messageLength : Instr → Nat
  | .charfor _ => 0
  | .valuefor _ => 0
  | .padchar => 0
  | .gather _ _ _ _ => 0
  | .scatter _ _ _ _ _ => 0
  | .encblk _ _ _ _ => 0
  | .decblk _ _ _ _ _ => 0
  | .encode len => len.toNat
  | .decode len => len.toNat

end Sys2Proof.Machine
end

