-- ==== Sys2Proof/Machine/Flags.lean ====
section
/-! DEFINITION. The only status outcomes of B64CORE (spec/10_state.md R19): the `ok` bit with its
result word (spec/30_encoding.md R51, R62) and the codes of `STATUS` and `MODE`
(spec/10_state.md R15). There are no arithmetic flags. -/

namespace Sys2Proof.Machine

/-- The value of `STATUS` as the host reads it (R15). -/
def Status.code : Status → BitVec 2
  | .idle => 0
  | .busy => 1
  | .doneOk => 2
  | .doneErr => 3

/-- The value of `MODE` as the host reads it (R15). -/
def Mode.code : Mode → BitVec 1
  | .enc => 0
  | .dec => 1

/-- `RW[36]`: 1 exactly when the command's result is not `Fail` (R19, R51). -/
def Result.ok : Result → Bool
  | .char _ => true
  | .value _ => true
  | .fields _ => true
  | .bytes _ => true
  | .chars _ => true
  | .length _ => true
  | .fail => false

/-- `RW[35:32]`: the count of present lanes where the command has one (R62). -/
def Result.raux : Result → BitVec 4
  | .char _ => 0
  | .value _ => 0
  | .fields fs => BitVec.ofNat 4 fs.length
  | .bytes ys => BitVec.ofNat 4 ys.length
  | .chars _ => 0
  | .length _ => 0
  | .fail => 0

/-- Four result lanes, `RL0` most significant; an absent one is written as 0 (R51, R62). -/
def lanePayload (ls : List Byte) : BitVec 32 :=
  byteLane ls 0 ++ byteLane ls 1 ++ byteLane ls 2 ++ byteLane ls 3

/-- `RW[31:0]` (R62). -/
def Result.payload : Result → BitVec 32
  | .char c => c.setWidth 32
  | .value v => v.setWidth 32
  | .fields fs => lanePayload (fs.map (fun f => f.setWidth 8))
  | .bytes ys => lanePayload ys
  | .chars cs => lanePayload cs
  | .length olen => olen
  | .fail => 0

/-- The 40-bit result word `RW` (R51, R62). -/
def Result.word (r : Result) : Word40 :=
  0#3 ++ BitVec.ofBool r.ok ++ r.raux ++ r.payload

end Sys2Proof.Machine
end

