-- ==== Sys2Proof/Machine/Ops.lean ====
section
/-! DEFINITION. The shared operations: the two buffers, what a step delivers, when a command is
taken, the accept step of a message command, and the one exception with the two ways out of it. -/

namespace Sys2Proof.Machine

/-! ## Buffers (spec/20_memory.md R33, R34, R37) -/

/-- The value of cell `i`, or `none` where it holds no value (R21). -/
def Memory.read (m : Memory) (i : Nat) : Option Byte :=
  match m with
  | [] => none
  | (j, b) :: rest => if i = j then some b else Memory.read rest i

/-- `m[i] <- b`, keeping the indices strictly rising. -/
def Memory.write (m : Memory) (i : Nat) (b : Byte) : Memory :=
  match m with
  | [] => [(i, b)]
  | (j, c) :: rest =>
    if i < j then (i, b) :: (j, c) :: rest
    else if i = j then (i, b) :: rest
    else (j, c) :: Memory.write rest i b

/-- `MemRead`: the `n` cells from `addr` on, lowest index first (R7); `none` where one of them holds
no value. -/
def Memory.readMany (m : Memory) (addr n : Nat) : Option (List Byte) :=
  match n with
  | 0 => some []
  | n + 1 =>
    match m.read addr, m.readMany (addr + 1) n with
    | some b, some bs => some (b :: bs)
    | _, _ => none

/-- `MemWrite`: the bytes of `bs` to the cells from `addr` on, first to the lowest index (R7). -/
def Memory.writeMany (m : Memory) (addr : Nat) (bs : List Byte) : Memory :=
  match bs with
  | [] => m
  | b :: bs => (m.write addr b).writeMany (addr + 1) bs

/-- `MemRead(IBUF, POS, n)` of a block step: within the message (R33), every cell written (R144). -/
def readMessage (n : Nat) (s : State) : Except Fault (List Byte) :=
  if s.pos.toNat + n ≤ s.ilen.toNat then
    match s.ibuf.readMany s.pos.toNat n with
    | some bs => .ok bs
    | none => .error .unwrittenCell
  else .error .readPastMessage

/-- `MemWrite(OBUF, OLEN, k, bs)` of a block step with `OLEN <- OLEN + k`: within the buffer (R32,
R33), each block appended after the one before it. -/
def appendOutput (bs : List Byte) (s : State) : Except Fault State :=
  if s.olen.toNat + bs.length ≤ s.cfg.ocap then
    .ok { s with obuf := s.obuf.writeMany s.olen.toNat bs
                 olen := s.olen + BitVec.ofNat 32 bs.length }
  else .error .writePastBuffer

/-- What a host read of `OBUF[i]` may see: a value only while `STATUS = DONE_OK` and `i < OLEN`
(R21). -/
def State.obufValue (s : State) (i : Nat) : Option Byte :=
  if s.status = .doneOk ∧ i < s.olen.toNat then s.obuf.read i else none

/-! ## What a step delivers -/

/-- A step that delivers nothing to the host. -/
def silent (s : State) : State := { s with reply := none }

/-- A command's result is delivered, and nothing else changes (R60, R62). -/
def deliver (r : Result) (s : State) : State := { s with reply := some (.result r) }

/-- `HST`: the five registers are delivered, and nothing else changes (R59, R131). -/
def deliverRegisters (s : State) : State :=
  { s with reply := some (.registers s.status.code s.mode.code s.ilen s.pos s.olen) }

/-! ## When a command is taken (spec/30_encoding.md R55, R60) -/

/-- A command that is not reserved is taken when `STATUS != BUSY` (R60); a reserved one is refused
whatever `STATUS` is (R55), and one presented while `BUSY` is refused (R145 (a)). -/
def takeCommand (i : Instr) (s : State) (taken : StepResult) : StepResult :=
  match i.illFormed with
  | some why => .refused (.reserved why)
  | none =>
    if s.cfg.maxLen < messageLength i then .refused .lengthAboveMaxlen
    else if s.status = .busy then .refused .commandWhileBusy
    else taken

/-- The part of the accept step that `ENCODE` and `DECODE` share (R93, R109): the registers are
overwritten and every cell of `OBUF` now holds no value. No result is delivered. -/
def acceptMessage (mode : Mode) (len : Len) (s : State) : State :=
  { s with
    mode := mode
    ilen := len
    pos := 0
    olen := 0
    status := .busy
    obuf := []
    reply := none }

/-- The end of a run in success (R95, R111): `STATUS <- DONE_OK` and the result carries `OLEN`. -/
def finishRun (s : State) : State :=
  { s with status := .doneOk, reply := some (.result (.length s.olen)) }

/-! ## The exception (spec/60_exceptions.md R124, R125) and reset (R140) -/

/-- `raise InvalidInput` inside a run (R124): `OLEN <- 0`, `STATUS <- DONE_ERR`, every cell of
`OBUF` holds no value, the result is `Fail`; `MODE`, `ILEN`, `POS` and `IBUF` keep their values.
Nothing is saved and there is no handler, so nothing returns from it (R125): `DONE_ERR` is left by
`acceptMessage` or by `resetBlock`. -/
def raiseInvalidInput (s : State) : State :=
  { s with
    olen := 0
    status := .doneErr
    obuf := []
    reply := some (.result .fail) }

/-- The reset event (R140): every register at its value of R24, no cell of either buffer holds a
value, and a run cut short delivers no result. The parameter and the host are not the block's. -/
def resetBlock (s : State) : State := { State.reset with cfg := s.cfg, host := s.host }

end Sys2Proof.Machine
end

