-- ==== Sys2Proof/Machine/Repack.lean ====
section
/-! DEFINITION. REPACK, the bit-repacker: `GATHER` and `SCATTER`
(spec/41_repacker.md R80 to R88). Present lanes are counted, never judged by their value. -/

namespace Sys2Proof.Machine

/-- `gather(n, b0, b1, b2)` (R80): the `n + 1` present fields, `f0` first. An absent byte is taken as
0 (R56, R81); every field fits 6 bits (R82). -/
def gather (n : Nat) (b0 b1 b2 : BitVec 8) : List Sym :=
  let b1 : BitVec 8 := if 2 ≤ n then b1 else 0
  let b2 : BitVec 8 := if 3 ≤ n then b2 else 0
  let f0 := b0 >>> 2
  let f1 := (b0 &&& 0x03) <<< 4 ||| b1 >>> 4
  let f2 := (b1 &&& 0x0F) <<< 2 ||| b2 >>> 6
  let f3 := b2 &&& 0x3F
  ([f0, f1, f2, f3].map (fun f => f.setWidth 6)).take (n + 1)

/-- `trunc_8` of a formula of R83 (D17). -/
def trunc8 (x : BitVec 16) : BitVec 8 := x.setWidth 8

/-- `scatter(m, v0, v1, v2, v3)` (R83): the `m - 1` produced bytes, `y0` first. The shifts are exact
(R87), only `trunc_8` cuts; an absent value is taken as 0 and never emitted (R84). -/
def scatter (m : Nat) (v0 v1 v2 v3 : BitVec 6) : List Byte :=
  let x0 : BitVec 16 := v0.setWidth 16
  let x1 : BitVec 16 := v1.setWidth 16
  let x2 : BitVec 16 := if 3 ≤ m then v2.setWidth 16 else 0
  let x3 : BitVec 16 := if 4 ≤ m then v3.setWidth 16 else 0
  let y0 := trunc8 (x0 <<< 2 ||| x1 >>> 4)
  let y1 := trunc8 (x1 <<< 4 ||| x2 >>> 2)
  let y2 := trunc8 (x2 <<< 6 ||| x3)
  [y0, y1, y2].take (m - 1)

/-- `GATHER` (R80): a pure command that cannot fail. -/
def execGather (n : BitVec 2) (b0 b1 b2 : Byte) (s : State) : StepResult :=
  takeCommand (.gather n b0 b1 b2) s (.next (deliver (.fields (gather n.toNat b0 b1 b2)) s))

/-- `SCATTER` (R83): a pure command that cannot fail; `vi = Li[5:0]` for a present lane. -/
def execScatter (m : BitVec 3) (l0 l1 l2 l3 : Byte) (s : State) : StepResult :=
  takeCommand (.scatter m l0 l1 l2 l3) s
    (.next (deliver (.bytes (scatter m.toNat (laneSymbol l0) (laneSymbol l1) (laneSymbol l2)
      (laneSymbol l3))) s))

end Sys2Proof.Machine
end

