-- ==== Sys2Proof/Machine/Symtab.lean ====
section
/-! DEFINITION. SYMTAB, the 6-bit symbol table: `CHARFOR`, `VALUEFOR`, `PADCHAR`
(spec/40_symbol_table.md R70 to R76). -/

namespace Sys2Proof.Machine

/-- `PAD`, the padding character `=` (R73). -/
def PAD : Byte := 0x3D

/-- The character of a value 0..63 (R71, the arms after the check of the range); the offsets stay
inside 0..255 (R75). -/
def symbolChar (v : Byte) : Byte :=
  if v ≤ 25 then v + 65
  else if v ≤ 51 then v + 71
  else if v ≤ 61 then v - 4
  else if v = 62 then 43
  else 47

/-- `char_for` (R71): `none` stands for `Fail`. -/
def charFor (v8 : Byte) : Option Byte := if 63 < v8 then none else some (symbolChar v8)

/-- `value_for` (R72): `none` stands for `Fail`, never a default value. -/
def valueFor (c : Byte) : Option Sym :=
  if 0x41 ≤ c ∧ c ≤ 0x5A then some ((c - 65).setWidth 6)
  else if 0x61 ≤ c ∧ c ≤ 0x7A then some ((c - 71).setWidth 6)
  else if 0x30 ≤ c ∧ c ≤ 0x39 then some ((c + 4).setWidth 6)
  else if c = 0x2B then some 62
  else if c = 0x2F then some 63
  else none

/-- The result of `CHARFOR` (R62). -/
def charforResult (v8 : Byte) : Result :=
  match charFor v8 with
  | some ch => .char ch
  | none => .fail

/-- The result of `VALUEFOR` (R62). -/
def valueforResult (c : Byte) : Result :=
  match valueFor c with
  | some v => .value v
  | none => .fail

/-- `CHARFOR` (R71): a pure command (R60). -/
def execCharfor (v8 : Byte) (s : State) : StepResult :=
  takeCommand (.charfor v8) s (.next (deliver (charforResult v8) s))

/-- `VALUEFOR` (R72): a pure command (R60). -/
def execValuefor (c : Byte) (s : State) : StepResult :=
  takeCommand (.valuefor c) s (.next (deliver (valueforResult c) s))

/-- `PADCHAR` (R73): a pure command that cannot fail. -/
def execPadchar (s : State) : StepResult := takeCommand .padchar s (.next (deliver (.char PAD) s))

end Sys2Proof.Machine
end

