-- ==== Sys2Proof/Machine/Decdp.lean ====
section
/-! DEFINITION. DECDP, the decoder datapath: `DECBLK`, `DECODE` and the sequencer steps of a
`DECODE` run (spec/43_decoder.md R100 to R119). -/

namespace Sys2Proof.Machine

/-- `p`, the length of the longest suffix of the group made only of `=` (R100, R101). -/
def padCount (c0 c1 c2 c3 : Byte) : Nat :=
  if c3 ≠ PAD then 0
  else if c2 ≠ PAD then 1
  else if c1 ≠ PAD then 2
  else if c0 ≠ PAD then 3
  else 4

/-- The symbol map over the remaining characters, in order: one `Fail` fails all (R100, R105). -/
def valuesFor : List Byte → Option (List Sym)
  | [] => some []
  | c :: cs =>
    match valueFor c with
    | none => none
    | some v =>
      match valuesFor cs with
      | none => none
      | some vs => some (v :: vs)

/-- `decode_block(c0, c1, c2, c3, final)` (R100): the produced bytes, or `none` for `Fail`.
Padding only in the final group (R102), at most twice (R103), only as a suffix (R104); bits that
reach no output byte are not checked (R107). -/
def decodeBlock (c0 c1 c2 c3 : Byte) (final : Bool) : Option (List Byte) :=
  let p := padCount c0 c1 c2 c3
  if 0 < p ∧ final = false then none
  else if 3 ≤ p then none
  else
    match valuesFor ([c0, c1, c2, c3].take (4 - p)) with
    | none => none
    | some vs => some (scatter (4 - p) (symLane vs 0) (symLane vs 1) (symLane vs 2) (symLane vs 3))

/-- The result of `DECBLK` (R62): `Fail` is a result and no exception (R122). -/
def decblkResult (final : Bool) (c0 c1 c2 c3 : Byte) : Result :=
  match decodeBlock c0 c1 c2 c3 final with
  | some ys => .bytes ys
  | none => .fail

/-- `DECBLK` (R100): a pure command. -/
def execDecblk (final : Bool) (c0 c1 c2 c3 : Byte) (s : State) : StepResult :=
  takeCommand (.decblk final c0 c1 c2 c3) s (.next (deliver (decblkResult final c0 c1 c2 c3) s))

/-- The `DECODE` accept step (R109): a length that is no multiple of 4 raises `InvalidInput` before
any cell of `IBUF` is read. -/
def acceptDecode (len : Len) (s : State) : State :=
  if len.toNat % 4 = 0 then acceptMessage .dec len s
  else raiseInvalidInput (acceptMessage .dec len s)

/-- `DECODE` (R108): its accept step (R109). The run goes on in `sequencerStep`. -/
def execDecode (len : Len) (s : State) : StepResult :=
  takeCommand (.decode len) s (.next (acceptDecode len s))

/-- The group that the next decode block step reads is the last of its message (R110). -/
def finalGroup (s : State) : Bool := s.pos.toNat + 4 == s.ilen.toNat

/-- The `DECODE` block step (R110): one group is read; a bad one raises `InvalidInput` with `POS`
unchanged, a good one is appended and `POS` moves past it. -/
def decodeBlockStep (s : State) : StepResult :=
  match readMessage 4 s with
  | .error f => .fault f
  | .ok cs =>
    match decodeBlock (byteLane cs 0) (byteLane cs 1) (byteLane cs 2) (byteLane cs 3)
      (finalGroup s) with
    | none => .next (raiseInvalidInput s)
    | some ys =>
      match appendOutput ys s with
      | .error f => .fault f
      | .ok t => .next { t with pos := s.pos + 4, reply := none }

/-- The `DECODE` finish step (R111). -/
def decodeFinishStep (s : State) : StepResult := .next (finishRun s)

end Sys2Proof.Machine
end

