-- ==== Sys2Proof/Machine/Encdp.lean ====
section
/-! DEFINITION. ENCDP, the encoder datapath: `ENCBLK`, `ENCODE` and the sequencer steps of an
`ENCODE` run (spec/42_encoder.md R90 to R99). -/

namespace Sys2Proof.Machine

/-- `encode_block(n, b0, b1, b2)` (R90): the present fields through the symbol table, then the
padding character in every slot that has no field, by position (R91). -/
def encodeBlock (n : Nat) (b0 b1 b2 : Byte) : List Byte :=
  let fs := gather n b0 b1 b2
  fs.map (fun f => symbolChar (f.setWidth 8)) ++ List.replicate (4 - fs.length) PAD

/-- `ENCBLK` (R90): a pure command that cannot fail. -/
def execEncblk (n : BitVec 2) (b0 b1 b2 : Byte) (s : State) : StepResult :=
  takeCommand (.encblk n b0 b1 b2) s (.next (deliver (.chars (encodeBlock n.toNat b0 b1 b2)) s))

/-- `ENCODE` (R92): its accept step (R93). The run goes on in `sequencerStep`. -/
def execEncode (len : Len) (s : State) : StepResult :=
  takeCommand (.encode len) s (.next (acceptMessage .enc len s))

/-- The number of cells the next encode block step reads: `min(3, ILEN - POS)` (R94). -/
def encodeCount (s : State) : Nat := min 3 (s.ilen.toNat - s.pos.toNat)

/-- The `ENCODE` block step (R94): one group is read, coded and appended, and `POS` moves past it. -/
def encodeBlockStep (s : State) : StepResult :=
  let n := encodeCount s
  match readMessage n s with
  | .error f => .fault f
  | .ok bs =>
    match appendOutput (encodeBlock n (byteLane bs 0) (byteLane bs 1) (byteLane bs 2)) s with
    | .error f => .fault f
    | .ok t => .next { t with pos := s.pos + BitVec.ofNat 32 n, reply := none }

/-- The `ENCODE` finish step (R95). -/
def encodeFinishStep (s : State) : StepResult := .next (finishRun s)

end Sys2Proof.Machine
end

