-- ==== Sys2Proof/Machine/Sequencer.lean ====
section
/-! DEFINITION. Which step of a run is enabled (spec/42_encoder.md R94, R95, R99;
spec/43_decoder.md R110, R111, R118), and the idle block (spec/60_exceptions.md R138). -/

namespace Sys2Proof.Machine

/-- The one enabled step of a run while `STATUS = BUSY`: the block step of the mode while
`POS < ILEN`, the finish step at `POS = ILEN` (R17, R99, R118). -/
def sequencerStep (s : State) : StepResult :=
  if s.pos.toNat < s.ilen.toNat then
    match s.mode with
    | .enc => encodeBlockStep s
    | .dec => decodeBlockStep s
  else if s.pos = s.ilen then
    match s.mode with
    | .enc => encodeFinishStep s
    | .dec => decodeFinishStep s
  else .fault .noStepEnabled

/-- A step in which the host makes no move: the enabled step of a run is taken (R149); with no run in
progress the block keeps all its state (R138). -/
def unattendedStep (s : State) : StepResult :=
  if s.status = .busy then sequencerStep s else .next (silent s)

end Sys2Proof.Machine
end

