-- ==== Sys2Proof/Machine/Dispatch.lean ====
section
/-! DEFINITION. The meaning of each command, one arm per constructor (spec/30_encoding.md R52). -/

namespace Sys2Proof.Machine

def exec (i : Instr) (s : State) : Host.Outcome State Fault Refusal :=
  match i with
  | .charfor v8 => Sys2Proof.Machine.execCharfor v8 s
  | .valuefor c => Sys2Proof.Machine.execValuefor c s
  | .padchar => Sys2Proof.Machine.execPadchar s
  | .gather n b0 b1 b2 => Sys2Proof.Machine.execGather n b0 b1 b2 s
  | .scatter m l0 l1 l2 l3 => Sys2Proof.Machine.execScatter m l0 l1 l2 l3 s
  | .encblk n b0 b1 b2 => Sys2Proof.Machine.execEncblk n b0 b1 b2 s
  | .decblk final c0 c1 c2 c3 => Sys2Proof.Machine.execDecblk final c0 c1 c2 c3 s
  | .encode len => Sys2Proof.Machine.execEncode len s
  | .decode len => Sys2Proof.Machine.execDecode len s

end Sys2Proof.Machine
end

