-- ==== Sys2Proof/Machine/HostMoves.lean ====
section
/-! DEFINITION. The moves of the host (spec/30_encoding.md R59; spec/70_reset_and_hazards.md R140,
R145, R146). Each takes the state from which the move has been taken off the host's list, but for
`WAIT`, which stays until `STATUS != BUSY`. -/

namespace Sys2Proof.Machine

/-- A command word is presented: it is decoded and its command executed, or refused (R55, R60). -/
def presentCommand (cw : Word40) (s : State) : StepResult :=
  match decode cw with
  | .error why => .refused (.reserved why)
  | .ok i => exec i s

/-- `HWR i, b`: `IBUF[i] <- b`, when not `BUSY` and the cell exists (R38, R59, R145 (b), R146). -/
def hostWrite (i : Nat) (b : Byte) (s : State) : StepResult :=
  if s.status = .busy then .refused .writeWhileBusy
  else if i < s.cfg.maxLen then .next { s with ibuf := s.ibuf.write i b, reply := none }
  else .fault .noSuchCell

/-- `HRD i`: the value of `OBUF[i]`, where the cell holds one (R21, R59, R145 (c), R146). -/
def hostRead (i : Nat) (s : State) : StepResult :=
  if s.status = .busy then .refused .readWhileBusy
  else
    match s.obufValue i with
    | some b => .next { s with reply := some (.cell b) }
    | none => .refused .cellHoldsNoValue

/-- `WAIT` (R59): while `BUSY` the run goes on and the host keeps waiting; then it has read the
registers and goes on with `rest`. -/
def hostWait (rest : List HostAction) (s : State) : StepResult :=
  if s.status = .busy then sequencerStep s
  else .next (deliverRegisters { s with host := rest })

/-- The host makes the move `a`, with the moves `rest` left after it. -/
def hostMove (a : HostAction) (rest : List HostAction) (s : State) : StepResult :=
  let t := { s with host := rest }
  match a with
  | .present cw => presentCommand cw t
  | .writeCell i b => hostWrite i b t
  | .readCell i => hostRead i t
  | .readRegisters => .next (deliverRegisters t)
  | .wait => hostWait rest s
  | .idle => unattendedStep t
  | .reset => .next (resetBlock t)

/-- The command word is presented as the host's next move. -/
def presentNext (cw : Word40) (s : State) : State := { s with host := .present cw :: s.host }

end Sys2Proof.Machine
end

