-- ==== Sys2Proof/Machine/Step.lean ====
section
/-! DEFINITION. One step of the machine. B64CORE fetches nothing (spec/20_memory.md R43): the next
command is the one the host presents. -/

namespace Sys2Proof.Machine

/-- One step: the host's next move, or, when it has none to make, the block left to itself. -/
def step (s : State) : Host.Outcome State Fault Refusal :=
  match s.host with
  | [] => unattendedStep s
  | a :: rest => hostMove a rest s

/-- The state in which the host's next move is to present the given word of the opcode table. -/
def State.withFetchWord (s : State) (nbits w : Nat) : State := presentNext (tableWord nbits w) s

end Sys2Proof.Machine
end

