-- ==== Sys2Proof/Machine/Assembler.lean ====
section
/-! DEFINITION. The assembler lines of spec/30_encoding.md R58, the host actions and the
pseudo-instruction `HLOAD` of R59: what a written program makes the host do. -/

namespace Sys2Proof.Machine

/-- One line of a program (R58, R59). Operands of `SCATTER` are 0..63 (R58), so 6 bits. -/
inductive Line where
  /-- `CHARFOR v` -/
  | charfor (v : Byte)
  /-- `VALUEFOR c` -/
  | valuefor (c : Byte)
  /-- `PADCHAR` -/
  | padchar
  /-- `GATHER b0`, `GATHER b0, b1` or `GATHER b0, b1, b2` -/
  | gather (bs : List Byte)
  /-- `SCATTER v0, v1` up to `SCATTER v0, v1, v2, v3` -/
  | scatter (vs : List Sym)
  /-- `ENCBLK`, as `GATHER` -/
  | encblk (bs : List Byte)
  /-- `DECBLK c0, c1, c2, c3` -/
  | decblk (c0 c1 c2 c3 : Byte)
  /-- `DECBLK.F c0, c1, c2, c3` -/
  | decblkF (c0 c1 c2 c3 : Byte)
  /-- `ENCODE len` -/
  | encode (len : Len)
  /-- `DECODE len` -/
  | decode (len : Len)
  /-- `HWR i, b` -/
  | hwr (i : Nat) (b : Byte)
  /-- `HRD i` -/
  | hrd (i : Nat)
  /-- `HST` -/
  | hst
  /-- `WAIT` -/
  | wait
  /-- `HLOAD "s"` -/
  | hload (s : List Byte)
  deriving DecidableEq, Repr

/-- The command of a line with a group of byte operands: the count is the number of operands, and
absent lanes are assembled as 0; none where it is not 1, 2 or 3 (R58). -/
def groupCommand (bs : List Byte) (mk : BitVec 2 → Byte → Byte → Byte → Instr) : Option Instr :=
  if 1 ≤ bs.length ∧ bs.length ≤ 3 then
    some (mk (BitVec.ofNat 2 bs.length) (byteLane bs 0) (byteLane bs 1) (byteLane bs 2))
  else none

/-- The command of a `SCATTER` line: 2, 3 or 4 operands (R58). -/
def symbolCommand (vs : List Sym) : Option Instr :=
  if 2 ≤ vs.length ∧ vs.length ≤ 4 then
    some (.scatter (BitVec.ofNat 3 vs.length) ((symLane vs 0).setWidth 8) ((symLane vs 1).setWidth 8)
      ((symLane vs 2).setWidth 8) ((symLane vs 3).setWidth 8))
  else none

/-- `HLOAD`: `HWR` of each byte to the next index, from `i` on (R59). -/
def loadMoves (i : Nat) : List Byte → List HostAction
  | [] => []
  | b :: bs => .writeCell i b :: loadMoves (i + 1) bs

/-- The moves of a command line: the command's word is presented. -/
def commandMoves (c : Option Instr) : Option (List HostAction) :=
  c.map (fun i => [.present (Sys2Proof.encode i)])

/-- The moves a line makes the host do; `none` where it is no line of R58. -/
def Line.moves : Line → Option (List HostAction)
  | .charfor v => commandMoves (some (.charfor v))
  | .valuefor c => commandMoves (some (.valuefor c))
  | .padchar => commandMoves (some .padchar)
  | .gather bs => commandMoves (groupCommand bs .gather)
  | .scatter vs => commandMoves (symbolCommand vs)
  | .encblk bs => commandMoves (groupCommand bs .encblk)
  | .decblk c0 c1 c2 c3 => commandMoves (some (.decblk false c0 c1 c2 c3))
  | .decblkF c0 c1 c2 c3 => commandMoves (some (.decblk true c0 c1 c2 c3))
  | .encode len => commandMoves (some (.encode len))
  | .decode len => commandMoves (some (.decode len))
  | .hwr i b => some [.writeCell i b]
  | .hrd i => some [.readCell i]
  | .hst => some [.readRegisters]
  | .wait => some [.wait]
  | .hload bs => some (loadMoves 0 bs)

/-- A whole program, line by line. -/
def assemble : List Line → Option (List HostAction)
  | [] => some []
  | l :: ls =>
    match l.moves, assemble ls with
    | some ms, some rest => some (ms ++ rest)
    | _, _ => none

end Sys2Proof.Machine
end

