-- ==== Sys2Proof/Machine/Message.lean ====
section
/-! DEFINITION. The closed forms of a whole message: `encode` (spec/42_encoder.md R96), `decode`
(spec/43_decoder.md R112), and the group at which a `DECODE` run ends in error (R119). -/

namespace Sys2Proof.Machine

/-- `encode(B)` (R96): every full group of 3 bytes, then the short final group if there is one. -/
def encodeMessage : List Byte → List Byte
  | [] => []
  | [b0] => encodeBlock 1 b0 0 0
  | [b0, b1] => encodeBlock 2 b0 b1 0
  | b0 :: b1 :: b2 :: rest => encodeBlock 3 b0 b1 b2 ++ encodeMessage rest

/-- `decode(T)` (R112): `none` stands for `Fail(InvalidInput)`. A length that is no multiple of 4
fails, one failing group fails the whole text, and `final` holds of the last group alone. -/
def decodeMessage : List Byte → Option (List Byte)
  | [] => some []
  | c0 :: c1 :: c2 :: c3 :: rest =>
    match decodeBlock c0 c1 c2 c3 rest.isEmpty, decodeMessage rest with
    | some ys, some zs => some (ys ++ zs)
    | _, _ => none
  | [_] => none
  | [_, _] => none
  | [_, _, _] => none

/-- The index of the first cell of the first group, in ascending order, whose `decode_block` fails
(R119); `none` where no group of 4 fails. -/
def firstBadGroup : List Byte → Option Nat
  | c0 :: c1 :: c2 :: c3 :: rest =>
    match decodeBlock c0 c1 c2 c3 rest.isEmpty with
    | none => some 0
    | some _ => (firstBadGroup rest).map (fun i => i + 4)
  | [] => none
  | [_] => none
  | [_, _] => none
  | [_, _, _] => none

/-- The number of `=` at the end of a text (R113). -/
def trailingPads (t : List Byte) : Nat := (t.reverse.takeWhile (fun c => c == PAD)).length

end Sys2Proof.Machine
end

