-- ==== Sys2Proof/Safety.lean ====
section
/-! DEFINITION. The terms in which claims are stated: the alphabet as a table, the words the spec
reserves, what a group and a text must be to decode, and the invariant of every run. The alphabet,
the groups, the reserved words and the rejected texts are written from the spec's tables and prose,
beside the model's own functions and not in terms of them. -/

namespace Sys2Proof.Machine

/-! ## The alphabet (spec/40_symbol_table.md R70, the full table) -/

/-- The character codes of values 0..63, in value order, column by column of the full table of R70. -/
def alphabet : List Byte :=
  [0x41, 0x42, 0x43, 0x44, 0x45, 0x46, 0x47, 0x48, 0x49, 0x4A, 0x4B, 0x4C, 0x4D, 0x4E, 0x4F, 0x50] ++
  [0x51, 0x52, 0x53, 0x54, 0x55, 0x56, 0x57, 0x58, 0x59, 0x5A, 0x61, 0x62, 0x63, 0x64, 0x65, 0x66] ++
  [0x67, 0x68, 0x69, 0x6A, 0x6B, 0x6C, 0x6D, 0x6E, 0x6F, 0x70, 0x71, 0x72, 0x73, 0x74, 0x75, 0x76] ++
  [0x77, 0x78, 0x79, 0x7A, 0x30, 0x31, 0x32, 0x33, 0x34, 0x35, 0x36, 0x37, 0x38, 0x39, 0x2B, 0x2F]

/-- The character code of a symbol value, by the table. -/
def alphabetChar (v : Sym) : Byte := alphabet.getD v.toNat 0

/-! ## Groups by bit position (spec/20_memory.md R34) -/

/-- The four 6-bit fields of a 24-bit group, the most significant first. -/
def sixBitFields (g : BitVec 24) : List Sym :=
  [g.extractLsb' 18 6, g.extractLsb' 12 6, g.extractLsb' 6 6, g.extractLsb' 0 6]

/-- The three bytes of a 24-bit group, the most significant first. -/
def groupBytes (g : BitVec 24) : List Byte :=
  [g.extractLsb' 16 8, g.extractLsb' 8 8, g.extractLsb' 0 8]

/-- The 24-bit group of the first `n` of three bytes, absent bytes as 0 (R80, R81). -/
def byteGroup (n : Nat) (b0 b1 b2 : Byte) : BitVec 24 :=
  b0 ++ (if 2 ≤ n then b1 else 0#8) ++ (if 3 ≤ n then b2 else 0#8)

/-- The 24-bit group of symbol values, absent ones as 0 (R83). -/
def symbolGroup (vs : List Sym) : BitVec 24 :=
  vs.getD 0 0 ++ vs.getD 1 0 ++ vs.getD 2 0 ++ vs.getD 3 0

/-- A group of four characters decodes to `ys` (R100 to R106): two, three or four alphabet
characters of values `vs`, then only padding, which needs a final group; one byte fewer than
values. -/
def GroupDecodes (c0 c1 c2 c3 : Byte) (final : Bool) (ys : List Byte) : Prop :=
  ∃ vs : List Sym, 2 ≤ vs.length ∧ vs.length ≤ 4 ∧
    [c0, c1, c2, c3] = vs.map alphabetChar ++ List.replicate (4 - vs.length) PAD ∧
    (vs.length < 4 → final = true) ∧
    ys = (groupBytes (symbolGroup vs)).take (vs.length - 1)

/-! ## Whole messages as the spec writes them (spec/42_encoder.md R96, spec/43_decoder.md R112) -/

/-- `encode(B)` by the indices of R96: the `len / 3` full groups, then the short final group. -/
def encodeByGroups (B : List Byte) : List Byte :=
  let q := B.length / 3
  (List.range q).flatMap (fun i =>
    encodeBlock 3 (B.getD (3 * i) 0) (B.getD (3 * i + 1) 0) (B.getD (3 * i + 2) 0)) ++
  (if B.length % 3 = 0 then []
    else if B.length % 3 = 1 then encodeBlock 1 (B.getD (3 * q) 0) 0 0
    else encodeBlock 2 (B.getD (3 * q) 0) (B.getD (3 * q + 1) 0) 0)

/-- `decode(T)` by the indices of R112: every group by `decode_block`, `final` for the last. -/
def decodeByGroups (T : List Byte) : Option (List Byte) :=
  if T.length % 4 ≠ 0 then none
  else
    let g := T.length / 4
    let rs := (List.range g).map (fun i =>
      decodeBlock (T.getD (4 * i) 0) (T.getD (4 * i + 1) 0) (T.getD (4 * i + 2) 0)
        (T.getD (4 * i + 3) 0) (i + 1 == g))
    if rs.all Option.isSome then some (rs.flatMap (fun r => r.getD [])) else none

/-! ## What `DECODE` rejects (spec/43_decoder.md R117) -/

/-- R117 (a): the length is no multiple of 4. -/
def BadLength (t : List Byte) : Prop := t.length % 4 ≠ 0

/-- R117 (b): a character that is neither of the alphabet nor `=`, at any position. -/
def ForeignChar (t : List Byte) : Prop := ∃ c ∈ t, c ∉ alphabet ∧ c ≠ PAD

/-- R117 (c): a `=` in a group that is not the last group. -/
def PadInEarlierGroup (t : List Byte) : Prop := ∃ i, t[i]? = some PAD ∧ i / 4 + 1 < t.length / 4

/-- R117 (d): in the last group, a `=` followed by a character that is not `=`. -/
def PadNotSuffix (t : List Byte) : Prop :=
  ∃ i c, i / 4 + 1 = t.length / 4 ∧ (i + 1) / 4 + 1 = t.length / 4 ∧
    t[i]? = some PAD ∧ t[i + 1]? = some c ∧ c ≠ PAD

/-- R117 (e): the last group ends in three or four `=`. -/
def TooMuchPadding (t : List Byte) : Prop :=
  4 ≤ t.length ∧ ∀ k, 1 ≤ k → k ≤ 3 → t[t.length - k]? = some PAD

/-- The causes of `InvalidInput`, R117 (a) to (e). -/
def Rejected (t : List Byte) : Prop :=
  BadLength t ∨ ForeignChar t ∨ PadInEarlierGroup t ∨ PadNotSuffix t ∨ TooMuchPadding t

/-! ## Reserved words (spec/30_encoding.md R53, R55 (a) to (e)) -/

/-- R55 (a): the unassigned operation codes. -/
def UnassignedOp (w : Word40) : Prop :=
  w.extractLsb' 36 4 ∈ ([0x3, 0x6, 0x7, 0xA, 0xB, 0xE, 0xF] : List (BitVec 4))

/-- R55 (b): a bit that must be 0 under the command's mask is 1. -/
def MustBeZeroSet (w : Word40) : Prop :=
  (w.extractLsb' 36 4 ∈ ([0x0, 0x1] : List (BitVec 4)) ∧ w.extractLsb' 8 28 ≠ 0) ∨
  (w.extractLsb' 36 4 = 0x2 ∧ w.extractLsb' 0 36 ≠ 0) ∨
  (w.extractLsb' 36 4 ∈ ([0x4, 0x8] : List (BitVec 4)) ∧
    (w.extractLsb' 34 2 ≠ 0 ∨ w.extractLsb' 0 8 ≠ 0)) ∨
  (w.extractLsb' 36 4 = 0x5 ∧ w.getLsbD 35 = true) ∨
  (w.extractLsb' 36 4 = 0x9 ∧ w.extractLsb' 33 3 ≠ 0) ∨
  (w.extractLsb' 36 4 ∈ ([0xC, 0xD] : List (BitVec 4)) ∧ w.extractLsb' 32 4 ≠ 0)

/-- R55 (c): `n = 0` in `GATHER` or `ENCBLK`. -/
def EmptyGroup (w : Word40) : Prop :=
  w.extractLsb' 36 4 ∈ ([0x4, 0x8] : List (BitVec 4)) ∧ w.extractLsb' 32 2 = 0

/-- R55 (d): `m` is 0, 1, 5, 6 or 7 in `SCATTER`. -/
def BadSymbolCount (w : Word40) : Prop :=
  w.extractLsb' 36 4 = 0x5 ∧ w.extractLsb' 32 3 ∈ ([0, 1, 5, 6, 7] : List (BitVec 3))

/-- R55 (e): a present lane of `SCATTER` has a non-zero top 2 bits; lane `i` has its top bits at
`31 - 8 * i` and below. -/
def SymbolTopBits (w : Word40) : Prop :=
  w.extractLsb' 36 4 = 0x5 ∧
    ∃ i, i < (w.extractLsb' 32 3).toNat ∧ i < 4 ∧ w.extractLsb' (30 - 8 * i) 2 ≠ 0

/-- A word that is reserved whatever `MAXLEN` is. -/
def ReservedWord (w : Word40) : Prop :=
  UnassignedOp w ∨ MustBeZeroSet w ∨ EmptyGroup w ∨ BadSymbolCount w ∨ SymbolTopBits w

/-- A word that names a message command with a length above `MAXLEN`: R55 (f). -/
def LengthTooLarge (maxLen : Nat) (w : Word40) : Prop :=
  w.extractLsb' 36 4 ∈ ([0xC, 0xD] : List (BitVec 4)) ∧ maxLen < (w.extractLsb' 0 32).toNat

/-! ## Kinds of command and of move -/

/-- The seven pure commands (R60). -/
def Pure : Instr → Prop
  | .charfor _ => True
  | .valuefor _ => True
  | .padchar => True
  | .gather _ _ _ _ => True
  | .scatter _ _ _ _ _ => True
  | .encblk _ _ _ _ => True
  | .decblk _ _ _ _ _ => True
  | .encode _ => False
  | .decode _ => False

/-- The move presents a message command. -/
def PresentsMessage (a : HostAction) : Prop :=
  ∃ cw i, a = .present cw ∧ decode cw = .ok i ∧ ¬ Pure i

/-- `k` steps of the machine. -/
abbrev steps (k : Nat) (s : State) : StepResult := Host.Core.run Sys2Proof.core k s

/-! ## The invariant of every run (spec/10_state.md R14, R16, R18, R21) -/

/-- What holds of the registers in each phase: the bounds of R14, the alignment of R13 and R36 and
the lengths of R18. -/
def PhaseInv (s : State) : Prop :=
  match s.status, s.mode with
  | .idle, .enc => s.ilen = 0 ∧ s.olen = 0
  | .idle, .dec => False
  | .busy, .enc =>
    s.olen.toNat = 4 * ceilThird s.pos.toNat ∧ (s.pos.toNat % 3 = 0 ∨ s.pos = s.ilen)
  | .busy, .dec =>
    s.ilen.toNat % 4 = 0 ∧ s.pos.toNat % 4 = 0 ∧ s.olen.toNat ≤ 3 * (s.pos.toNat / 4) ∧
      3 * (s.pos.toNat / 4) ≤ s.olen.toNat + 2 ∧
      (s.pos.toNat < s.ilen.toNat → s.olen.toNat = 3 * (s.pos.toNat / 4))
  | .doneOk, .enc => s.pos = s.ilen ∧ s.olen.toNat = 4 * ceilThird s.ilen.toNat
  | .doneOk, .dec =>
    s.pos = s.ilen ∧ s.ilen.toNat % 4 = 0 ∧ s.olen.toNat ≤ 3 * (s.ilen.toNat / 4) ∧
      3 * (s.ilen.toNat / 4) ≤ s.olen.toNat + 2
  | .doneErr, .enc => False
  | .doneErr, .dec =>
    s.olen = 0 ∧ s.pos.toNat % 4 = 0 ∧ (s.ilen.toNat % 4 ≠ 0 → s.pos = 0) ∧
      (s.ilen.toNat % 4 = 0 → s.pos.toNat < s.ilen.toNat)

/-- The invariant: a legal parameter, both buffers in canonical form and inside their spaces, exactly
the cells `0 .. OLEN-1` of `OBUF` listed, `POS <= ILEN <= MAXLEN`, and the phase's facts. -/
structure State.Inv (s : State) : Prop where
  legal : s.cfg.Legal
  ibufWf : s.ibuf.wf
  ibufInside : ∀ c ∈ s.ibuf, c.1 < s.cfg.maxLen
  obufCells : s.obuf.map Prod.fst = List.range s.olen.toNat
  posLe : s.pos.toNat ≤ s.ilen.toNat
  ilenLe : s.ilen.toNat ≤ s.cfg.maxLen
  phase : PhaseInv s

end Sys2Proof.Machine
end

