-- ==== Sys2Proof/Certificates/Slice0/Obligations.lean ====
section
/-! DEFINITION. The statements for the provers, each with the rule of spec/ it formalises. -/

open Sys2Proof Sys2Proof.Machine

/-! ## Encoding (spec/30_encoding.md) -/

/-- Words of section 8 and of spec/95_test_vectors.md, one or more per family, decode to the commands
they are written for. -/
def Obligations.TableWordsDecodeToTheirCommands : Prop :=
  decode 0x0000000018 = .ok (.charfor 24) ∧
  decode 0x1000000059 = .ok (.valuefor 0x59) ∧
  decode 0x2000000000 = .ok .padchar ∧
  decode 0x4261620000 = .ok (.gather 2 0x61 0x62 0) ∧
  decode 0x5218104055 = .ok (.scatter 2 24 16 0x40 0x55) ∧
  decode 0x8361626300 = .ok (.encblk 3 0x61 0x62 0x63) ∧
  decode 0x9159513D3D = .ok (.decblk true 0x59 0x51 0x3D 0x3D) ∧
  decode 0xC000000003 = .ok (.encode 3) ∧
  decode 0xD000000004 = .ok (.decode 4)

/-- Decoding the word of a command gives the command back, with every operand (R53, R54, R56). -/
def Obligations.DecodeOfEncodeIsTheCommand : Prop :=
  ∀ i : Instr, i.wf = true → decode (encode i) = .ok i

/-- A word that decodes is the word of its command, so no bit of it is dropped; and the command is
well formed (R50, R56). -/
def Obligations.EncodeOfDecodeIsTheWord : Prop :=
  ∀ (w : Word40) (i : Instr), decode w = .ok i → i.wf = true ∧ encode i = w

/-- The words that decode are exactly those that R55 (a) to (e) do not reserve. -/
def Obligations.WordsThatDecodeAreTheUnreserved : Prop :=
  ∀ w : Word40, (∃ i, decode w = .ok i) ↔ ¬ ReservedWord w

/-- R55: a reserved word that the host presents is refused in every state, the length check of (f)
among the causes. A refusal has no next state and so no effect. -/
def Obligations.ReservedWordsAreRefused : Prop :=
  ∀ (s : State) (w : Word40) (rest : List HostAction), s.host = .present w :: rest →
    (ReservedWord w → ∃ why, step s = .refused (.reserved why)) ∧
    (¬ ReservedWord w → LengthTooLarge s.cfg.maxLen w → step s = .refused .lengthAboveMaxlen)

/-- A step in which the host presents a word that decodes to `i` is the execution of `i`, in the state
from which the move has been taken. -/
def Obligations.StepRunsThePresentedCommand : Prop :=
  ∀ (s : State) (w : Word40) (i : Instr) (rest : List HostAction),
    s.host = .present w :: rest → decode w = .ok i → step s = exec i { s with host := rest }

/-- An absent lane never affects what a command does (R56). -/
def Obligations.AbsentLanesAreIgnored : Prop :=
  ∀ (s : State) (b0 b1 b2 x1 x2 x3 : Byte) (n : BitVec 2) (m : BitVec 3) (l0 l1 l2 l3 : Byte),
    (n.toNat ≤ 2 → exec (.gather n b0 b1 b2) s = exec (.gather n b0 b1 x2) s ∧
      exec (.encblk n b0 b1 b2) s = exec (.encblk n b0 b1 x2) s) ∧
    (n = 1 → exec (.gather n b0 b1 b2) s = exec (.gather n b0 x1 x2) s ∧
      exec (.encblk n b0 b1 b2) s = exec (.encblk n b0 x1 x2) s) ∧
    (m.toNat ≤ 3 → exec (.scatter m l0 l1 l2 l3) s = exec (.scatter m l0 l1 l2 x3) s) ∧
    (m.toNat ≤ 2 → exec (.scatter m l0 l1 l2 l3) s = exec (.scatter m l0 l1 x2 x3) s)

/-- The 40 bits of a result word, for each kind of result (R51, R62): `Fail` is all zeros, an absent
lane is written as 0, and a success differs from `Fail` in `RW[36]`. -/
def Obligations.ResultWordLayout : Prop :=
  (∀ r : Result, r.word.extractLsb' 37 3 = 0 ∧ (r.word.getLsbD 36 = false ↔ r = .fail)) ∧
  Result.fail.word = 0 ∧
  (∀ c : Byte, (Result.char c).word = 0x10#8 ++ 0#24 ++ c) ∧
  (∀ v : Sym, (Result.value v).word = 0x10#8 ++ 0#26 ++ v) ∧
  (∀ olen : Len, (Result.length olen).word = 0x10#8 ++ olen) ∧
  (∀ a b c d : Byte, (Result.chars [a, b, c, d]).word = 0x10#8 ++ a ++ b ++ c ++ d) ∧
  (∀ a b : Sym, (Result.fields [a, b]).word = 0x12#8 ++ 0#2 ++ a ++ 0#2 ++ b ++ 0#16) ∧
  (∀ a b c : Sym,
    (Result.fields [a, b, c]).word = 0x13#8 ++ 0#2 ++ a ++ 0#2 ++ b ++ 0#2 ++ c ++ 0#8) ∧
  (∀ a b c d : Sym, (Result.fields [a, b, c, d]).word =
    0x14#8 ++ 0#2 ++ a ++ 0#2 ++ b ++ 0#2 ++ c ++ 0#2 ++ d) ∧
  (∀ a : Byte, (Result.bytes [a]).word = 0x11#8 ++ a ++ 0#24) ∧
  (∀ a b : Byte, (Result.bytes [a, b]).word = 0x12#8 ++ a ++ b ++ 0#16) ∧
  (∀ a b c : Byte, (Result.bytes [a, b, c]).word = 0x13#8 ++ a ++ b ++ c ++ 0#8)

/-! ## The pure commands -/

/-- R60: a pure command reads no register and no buffer (its result is the same in every state) and
changes nothing but what it delivers. -/
def Obligations.PureCommandsReadAndWriteNoState : Prop :=
  ∀ i : Instr, Pure i → i.wf = true → ∃ r : Result, ∀ s : State, s.status ≠ .busy →
    exec i s = .next { s with reply := some (.result r) }

/-- R71: `CHARFOR`, by the arms of its pseudocode, on every operand. -/
def Obligations.CharforResult : Prop :=
  ∀ v8 : Byte, decode (0x00000000#32 ++ v8) = .ok (.charfor v8) ∧
    ∃ r : Result,
      (∀ s : State, s.status ≠ .busy →
        exec (.charfor v8) s = .next { s with reply := some (.result r) }) ∧
      (63 < v8.toNat → r = .fail) ∧
      (v8.toNat ≤ 25 → r = .char (BitVec.ofNat 8 (v8.toNat + 65))) ∧
      (25 < v8.toNat → v8.toNat ≤ 51 → r = .char (BitVec.ofNat 8 (v8.toNat + 71))) ∧
      (51 < v8.toNat → v8.toNat ≤ 61 → r = .char (BitVec.ofNat 8 (v8.toNat - 4))) ∧
      (v8 = 62 → r = .char 43) ∧
      (v8 = 63 → r = .char 47) ∧
      (r.ok = false ↔ r = .fail)

/-- R72: `VALUEFOR`, by the arms of its pseudocode, on every operand. -/
def Obligations.ValueforResult : Prop :=
  ∀ c : Byte, decode (0x10000000#32 ++ c) = .ok (.valuefor c) ∧
    ∃ r : Result,
      (∀ s : State, s.status ≠ .busy →
        exec (.valuefor c) s = .next { s with reply := some (.result r) }) ∧
      (0x41 ≤ c.toNat → c.toNat ≤ 0x5A → r = .value (BitVec.ofNat 6 (c.toNat - 65))) ∧
      (0x61 ≤ c.toNat → c.toNat ≤ 0x7A → r = .value (BitVec.ofNat 6 (c.toNat - 71))) ∧
      (0x30 ≤ c.toNat → c.toNat ≤ 0x39 → r = .value (BitVec.ofNat 6 (c.toNat + 4))) ∧
      (c = 0x2B → r = .value 62) ∧
      (c = 0x2F → r = .value 63) ∧
      (¬ (0x41 ≤ c.toNat ∧ c.toNat ≤ 0x5A) → ¬ (0x61 ≤ c.toNat ∧ c.toNat ≤ 0x7A) →
        ¬ (0x30 ≤ c.toNat ∧ c.toNat ≤ 0x39) → c ≠ 0x2B → c ≠ 0x2F → r = .fail) ∧
      (r.ok = false ↔ r = .fail)

/-- R73: `PADCHAR` delivers 0x3D and cannot fail. -/
def Obligations.PadcharResult : Prop :=
  decode 0x2000000000 = .ok .padchar ∧ (Result.char 0x3D).ok = true ∧
  ∀ s : State, s.status ≠ .busy →
    exec .padchar s = .next { s with reply := some (.result (.char 0x3D)) }

/-- R70: the symbol table is the full table of the spec, value by value and back. -/
def Obligations.SymbolTableIsTheAlphabet : Prop :=
  alphabet.length = 64 ∧
  ∀ v : Sym, charFor (v.setWidth 8) = some (alphabetChar v) ∧ valueFor (alphabetChar v) = some v

/-- R74: the symbol table is a bijection, and the padding character is outside it. -/
def Obligations.SymbolTableIsABijection : Prop :=
  (∀ v : Sym, (charFor (v.setWidth 8)).bind valueFor = some v) ∧
  (∀ (c : Byte) (v : Sym), valueFor c = some v → charFor (v.setWidth 8) = some c) ∧
  valueFor PAD = none ∧
  (∀ v : Byte, charFor v ≠ some PAD)

/-- R80: `GATHER`, its word and its result by the formulas on unbounded integers (R6), for every
count and every byte. -/
def Obligations.GatherResult : Prop :=
  ∀ (s : State) (n : BitVec 2) (b0 b1 b2 : Byte), n ≠ 0 → s.status ≠ .busy →
    decode (0x4#4 ++ 0#2 ++ n ++ b0 ++ b1 ++ b2 ++ 0#8) = .ok (.gather n b0 b1 b2) ∧
    let x0 := b0.toNat
    let x1 := if 2 ≤ n.toNat then b1.toNat else 0
    let x2 := if 3 ≤ n.toNat then b2.toNat else 0
    ∃ fs : List Sym,
      exec (.gather n b0 b1 b2) s = .next { s with reply := some (.result (.fields fs)) } ∧
      (Result.fields fs).ok = true ∧
      fs.map BitVec.toNat =
        [x0 >>> 2, (x0 &&& 0x03) <<< 4 ||| x1 >>> 4, (x1 &&& 0x0F) <<< 2 ||| x2 >>> 6,
          x2 &&& 0x3F].take (n.toNat + 1)

/-- R83: `SCATTER`, its word and its result by the formulas on unbounded integers (R6) cut to 8 bits,
for every count and every admitted lane. -/
def Obligations.ScatterResult : Prop :=
  ∀ (s : State) (m : BitVec 3) (l0 l1 l2 l3 : Byte), (Instr.scatter m l0 l1 l2 l3).wf = true →
    s.status ≠ .busy →
    decode (0x5#4 ++ 0#1 ++ m ++ l0 ++ l1 ++ l2 ++ l3) = .ok (.scatter m l0 l1 l2 l3) ∧
    let v0 := l0.toNat % 64
    let v1 := l1.toNat % 64
    let w2 := if 3 ≤ m.toNat then l2.toNat % 64 else 0
    let w3 := if 4 ≤ m.toNat then l3.toNat % 64 else 0
    ∃ ys : List Byte,
      exec (.scatter m l0 l1 l2 l3) s = .next { s with reply := some (.result (.bytes ys)) } ∧
      (Result.bytes ys).ok = true ∧
      ys.map BitVec.toNat =
        [(v0 <<< 2 ||| v1 >>> 4) % 256, (v1 <<< 4 ||| w2 >>> 2) % 256,
          (w2 <<< 6 ||| w3) % 256].take (m.toNat - 1)

/-- The shift formulas of the repacker agree with slicing the 24-bit group, first byte most
significant (R34, R87, the "equivalently" lines of R80 and R83). -/
def Obligations.RepackerIsBitSlicing : Prop :=
  (∀ (n : Nat) (b0 b1 b2 : Byte),
    gather n b0 b1 b2 = (sixBitFields (byteGroup n b0 b1 b2)).take (n + 1)) ∧
  (∀ (v0 v1 v2 v3 : Sym),
    scatter 2 v0 v1 v2 v3 = (groupBytes (symbolGroup [v0, v1])).take 1 ∧
    scatter 3 v0 v1 v2 v3 = (groupBytes (symbolGroup [v0, v1, v2])).take 2 ∧
    scatter 4 v0 v1 v2 v3 = (groupBytes (symbolGroup [v0, v1, v2, v3])).take 3)

/-- R85: scattering the fields of 1, 2 or 3 bytes gives the bytes back. -/
def Obligations.ScatterUndoesGather : Prop :=
  ∀ (n : Nat) (b0 b1 b2 : Byte), 1 ≤ n → n ≤ 3 →
    let fs := gather n b0 b1 b2
    fs.length = n + 1 ∧
    scatter (n + 1) (fs.getD 0 0) (fs.getD 1 0) (fs.getD 2 0) (fs.getD 3 0) = [b0, b1, b2].take n

/-- R86: gathering the bytes of 4, 3 or 2 values gives the values back, less the low bits that a
short group loses. -/
def Obligations.GatherAfterScatter : Prop :=
  ∀ v0 v1 v2 v3 : Sym,
    (let ys := scatter 4 v0 v1 v2 v3
     ys.length = 3 ∧ gather 3 (ys.getD 0 0) (ys.getD 1 0) (ys.getD 2 0) = [v0, v1, v2, v3]) ∧
    (let ys := scatter 3 v0 v1 v2 v3
     ys.length = 2 ∧ gather 2 (ys.getD 0 0) (ys.getD 1 0) 0 = [v0, v1, v2 &&& 0x3C]) ∧
    (let ys := scatter 2 v0 v1 v2 v3
     ys.length = 1 ∧ gather 1 (ys.getD 0 0) 0 0 = [v0, v1 &&& 0x30])

/-- R90, R91: `ENCBLK` delivers four characters: the table's character of each of the `n + 1` fields
of the 24-bit group, then the padding character in the slots that have no field. -/
def Obligations.EncblkResult : Prop :=
  ∀ (s : State) (n : BitVec 2) (b0 b1 b2 : Byte), n ≠ 0 → s.status ≠ .busy →
    decode (0x8#4 ++ 0#2 ++ n ++ b0 ++ b1 ++ b2 ++ 0#8) = .ok (.encblk n b0 b1 b2) ∧
    ∃ cs : List Byte,
      exec (.encblk n b0 b1 b2) s = .next { s with reply := some (.result (.chars cs)) } ∧
      (Result.chars cs).ok = true ∧
      cs.length = 4 ∧
      (∀ i, i < 4 → cs[i]? =
        if i < n.toNat + 1 then
          ((sixBitFields (byteGroup n.toNat b0 b1 b2))[i]?).map alphabetChar
        else some 0x3D)

/-- R100 to R107: `DECBLK` delivers the bytes of a group that decodes, and `Fail` for every other
group; neither touches a register or a buffer. -/
def Obligations.DecblkResult : Prop :=
  ∀ (s : State) (final : Bool) (c0 c1 c2 c3 : Byte), s.status ≠ .busy →
    decode (0x9#4 ++ 0#3 ++ BitVec.ofBool final ++ c0 ++ c1 ++ c2 ++ c3) =
      .ok (.decblk final c0 c1 c2 c3) ∧
    (∀ ys, GroupDecodes c0 c1 c2 c3 final ys →
      exec (.decblk final c0 c1 c2 c3) s =
        .next { s with reply := some (.result (.bytes ys)) }) ∧
    ((¬ ∃ ys, GroupDecodes c0 c1 c2 c3 final ys) →
      exec (.decblk final c0 c1 c2 c3) s = .next { s with reply := some (.result .fail) })

/-! ## The message commands and the steps of a run -/

/-- R93: the accept step of `ENCODE`, from every state in which no run is in progress. -/
def Obligations.EncodeAcceptStep : Prop :=
  ∀ (s : State) (len : Len), len.toNat ≤ s.cfg.maxLen → s.status ≠ .busy →
    decode (0xC#4 ++ 0#4 ++ len) = .ok (.encode len) ∧
    exec (.encode len) s =
      .next { s with
        mode := .enc
        ilen := len
        pos := 0
        olen := 0
        status := .busy
        obuf := []
        reply := none }

/-- R109: the accept step of `DECODE`: a length that is a multiple of 4 starts the run, any other
raises `InvalidInput`, and no cell of `IBUF` is looked at. -/
def Obligations.DecodeAcceptStep : Prop :=
  ∀ (s : State) (len : Len), len.toNat ≤ s.cfg.maxLen → s.status ≠ .busy →
    decode (0xD#4 ++ 0#4 ++ len) = .ok (.decode len) ∧
    exec (.decode len) s =
      .next { s with
        mode := .dec
        ilen := len
        pos := 0
        olen := 0
        status := if len.toNat % 4 = 0 then .busy else .doneErr
        obuf := []
        reply := if len.toNat % 4 = 0 then none else some (.result .fail) }

/-- R94: the `ENCODE` block step reads `min(3, ILEN - POS)` cells, appends four characters to `OBUF`,
and moves `POS` and `OLEN` on; every other cell of `OBUF` and all other state is as before. -/
def Obligations.EncodeBlockStep : Prop :=
  ∀ (s : State) (n : Nat) (bs : List Byte), s.Inv → s.status = .busy → s.mode = .enc →
    s.pos.toNat < s.ilen.toNat → n = min 3 (s.ilen.toNat - s.pos.toNat) →
    s.ibuf.readMany s.pos.toNat n = some bs →
    ∃ t : State, sequencerStep s = .next t ∧
      t = { s with obuf := t.obuf, olen := t.olen, pos := t.pos, reply := none } ∧
      t.obuf.readMany s.olen.toNat 4 =
        some (encodeBlock n (bs.getD 0 0) (bs.getD 1 0) (bs.getD 2 0)) ∧
      (∀ a, a < s.olen.toNat ∨ s.olen.toNat + 4 ≤ a → t.obuf.read a = s.obuf.read a) ∧
      t.olen.toNat = s.olen.toNat + 4 ∧
      t.pos.toNat = s.pos.toNat + n

/-- R110, with the entry of R124: the `DECODE` block step on a group that decodes appends its bytes to
`OBUF` and moves `POS` by 4 and `OLEN` by the count, every other cell of `OBUF` and all other state as
before; on a group that does not decode it raises `InvalidInput`: `OLEN` is 0, `STATUS` is `DONE_ERR`,
no cell of `OBUF` holds a value, the result is `Fail`, and all other state keeps its values. -/
def Obligations.DecodeBlockStep : Prop :=
  ∀ (s : State) (c0 c1 c2 c3 : Byte), s.Inv → s.status = .busy → s.mode = .dec →
    s.pos.toNat < s.ilen.toNat → s.ibuf.readMany s.pos.toNat 4 = some [c0, c1, c2, c3] →
    (∀ ys, GroupDecodes c0 c1 c2 c3 (s.pos.toNat + 4 = s.ilen.toNat) ys →
      ∃ t : State, sequencerStep s = .next t ∧
        t = { s with obuf := t.obuf, olen := t.olen, pos := t.pos, reply := none } ∧
        t.obuf.readMany s.olen.toNat ys.length = some ys ∧
        (∀ a, a < s.olen.toNat ∨ s.olen.toNat + ys.length ≤ a → t.obuf.read a = s.obuf.read a) ∧
        t.olen.toNat = s.olen.toNat + ys.length ∧
        t.pos.toNat = s.pos.toNat + 4) ∧
    ((¬ ∃ ys, GroupDecodes c0 c1 c2 c3 (s.pos.toNat + 4 = s.ilen.toNat) ys) →
      sequencerStep s =
        .next { s with olen := 0, status := .doneErr, obuf := [], reply := some (.result .fail) })

/-- R95, R111: the finish step of either direction ends the run in success with the result `OLEN`,
and changes nothing else. -/
def Obligations.FinishSteps : Prop :=
  ∀ s : State, s.status = .busy → s.pos = s.ilen →
    sequencerStep s =
      .next { s with status := .doneOk, reply := some (.result (.length s.olen)) }

/-- A run goes on while the host has no move, is idle or waits; with no run in progress the block
keeps its registers and buffers, and `WAIT` delivers the five registers, `STATUS` and `MODE` by the
codes of R15, and ends (R59, R138, R149). The model's choice, not the spec's: that the host's moves are
a list and that a run goes on when it is empty (log entries 2, 10), that `idle` is a move (log entry
10), and that `WAIT` is one move that takes the run's steps and delivers once, at its end (log
entry 9). -/
def Obligations.UnattendedBlock : Prop :=
  ∀ (s : State) (rest : List HostAction),
    (s.status = .busy →
      (s.host = [] → step s = sequencerStep s) ∧
      (s.host = .idle :: rest → step s = sequencerStep { s with host := rest }) ∧
      (s.host = .wait :: rest → step s = sequencerStep s)) ∧
    (s.status ≠ .busy →
      (s.host = [] → step s = .next { s with reply := none }) ∧
      (s.host = .idle :: rest → step s = .next { s with host := rest, reply := none }) ∧
      (s.host = .wait :: rest → ∃ (st : BitVec 2) (md : BitVec 1),
        step s = .next { s with
          host := rest, reply := some (.registers st md s.ilen s.pos s.olen) } ∧
        (st = 0 ↔ s.status = .idle) ∧ (st = 1 ↔ s.status = .busy) ∧
        (st = 2 ↔ s.status = .doneOk) ∧ (st = 3 ↔ s.status = .doneErr) ∧
        (md = 0 ↔ s.mode = .enc) ∧ (md = 1 ↔ s.mode = .dec)))

/-- The model's reading of U2 (log entry 4, DESIGN CHOICE): a block step that would read a cell
holding no value faults, and never takes a value for it (R144). -/
def Obligations.UnwrittenCellIsNeverRead : Prop :=
  ∀ s : State, s.Inv → s.status = .busy → s.pos.toNat < s.ilen.toNat →
    s.ibuf.readMany s.pos.toNat
      (match s.mode with
        | .enc => min 3 (s.ilen.toNat - s.pos.toNat)
        | .dec => 4) = none →
    sequencerStep s = .fault .unwrittenCell

/-! ## The host's moves (spec/30_encoding.md R59, spec/70_reset_and_hazards.md) -/

/-- `HWR i, b` stores one cell of `IBUF` and changes nothing else (R37, R38, R59, R146). That a write
at or above `MAXLEN`, where R38 names no cell, faults is the model's choice (log entry 6). -/
def Obligations.HostWriteStoresOneCell : Prop :=
  ∀ (s : State) (i : Nat) (b : Byte) (rest : List HostAction),
    s.host = .writeCell i b :: rest → s.status ≠ .busy →
    (i < s.cfg.maxLen → ∃ t : State, step s = .next t ∧
      t = { s with host := rest, ibuf := t.ibuf, reply := none } ∧
      t.ibuf.read i = some b ∧ ∀ a, a ≠ i → t.ibuf.read a = s.ibuf.read a) ∧
    (s.cfg.maxLen ≤ i → step s = .fault .noSuchCell)

/-- `HRD i` at `DONE_OK` with `i < OLEN` delivers the cell, which holds a value, and changes nothing
else; with no run in progress every other `HRD` is refused (R21, R146). -/
def Obligations.HostReadDeliversACellOfTheResult : Prop :=
  ∀ (s : State) (i : Nat) (rest : List HostAction), s.Inv → s.host = .readCell i :: rest →
    (s.status = .doneOk → i < s.olen.toNat → ∃ b, s.obuf.read i = some b ∧
      step s = .next { s with host := rest, reply := some (.cell b) }) ∧
    (s.status ≠ .busy → ¬ (s.status = .doneOk ∧ i < s.olen.toNat) →
      step s = .refused .cellHoldsNoValue)

/-- While `BUSY` the host can present no command, write no `IBUF` cell and read no `OBUF` cell: each
is refused (R60, R145; the refusal is the choice of log entry 5 among those of U4). -/
def Obligations.BusyBlockRefusesTheHost : Prop :=
  ∀ s : State, s.status = .busy →
    (∀ i : Instr, i.wf = true → messageLength i ≤ s.cfg.maxLen →
      exec i s = .refused .commandWhileBusy) ∧
    (∀ i b rest, s.host = .writeCell i b :: rest → step s = .refused .writeWhileBusy) ∧
    (∀ i rest, s.host = .readCell i :: rest → step s = .refused .readWhileBusy)

/-- `HST` delivers the five registers, `STATUS` and `MODE` by the codes of R15, in every state, and
changes nothing (R131, R146). -/
def Obligations.HstDeliversTheRegisters : Prop :=
  ∀ (s : State) (rest : List HostAction), s.host = .readRegisters :: rest →
    ∃ (st : BitVec 2) (md : BitVec 1),
      step s = .next { s with host := rest, reply := some (.registers st md s.ilen s.pos s.olen) } ∧
      (st = 0 ↔ s.status = .idle) ∧ (st = 1 ↔ s.status = .busy) ∧
      (st = 2 ↔ s.status = .doneOk) ∧ (st = 3 ↔ s.status = .doneErr) ∧
      (md = 0 ↔ s.mode = .enc) ∧ (md = 1 ↔ s.mode = .dec)

/-- R140: reset, which may come in any state, puts every register at its reset value, leaves no cell
of either buffer with a value and delivers no result. That the parameter and the host's coming moves,
which are no state of the block, are carried over is the model's choice (log entries 1, 2, 11). -/
def Obligations.ResetFromAnyState : Prop :=
  ∀ (s : State) (rest : List HostAction), s.host = .reset :: rest →
    ∃ t : State, step s = .next t ∧ t.status = .idle ∧ t.mode = .enc ∧ t.ilen = 0 ∧ t.pos = 0 ∧
      t.olen = 0 ∧ (∀ a, t.ibuf.read a = none) ∧ (∀ a, t.obuf.read a = none) ∧
      t.reply = none ∧ t.cfg = s.cfg ∧ t.host = rest

/-- R24: the registers and buffers of the state after reset. -/
def Obligations.ResetState : Prop :=
  State.reset.status.code = 0 ∧ State.reset.mode.code = 0 ∧ State.reset.ilen = 0 ∧
    State.reset.pos = 0 ∧ State.reset.olen = 0 ∧
    (∀ a, State.reset.ibuf.read a = none) ∧ (∀ a, State.reset.obuf.read a = none)

/-! ## Invariants -/

/-- The invariant holds after reset. -/
def Obligations.ResetMeetsTheInvariant : Prop := State.reset.Inv

/-- Every step keeps the invariant: the canonical form of both buffers, their bounds, `POS <= ILEN
<= MAXLEN`, exactly the cells below `OLEN` listed in `OBUF`, and the lengths and alignments of each
phase (R13, R14, R18, R21, R32). -/
def Obligations.StepKeepsTheInvariant : Prop :=
  ∀ s t : State, s.Inv → step s = .next t → t.Inv

/-- Under the invariant no step reads past the message, writes past the output buffer or finds no
step enabled (R14, R32, R33, R99, R118). -/
def Obligations.NoStepLeavesTheBuffers : Prop :=
  ∀ s : State, s.Inv →
    step s ≠ .fault .readPastMessage ∧ step s ≠ .fault .writePastBuffer ∧
      step s ≠ .fault .noStepEnabled

/-- A run whose message is loaded always takes its enabled step, and each step moves `POS` on or ends
the run (R99, R118). -/
def Obligations.RunsMakeProgress : Prop :=
  ∀ s : State, s.Inv → s.status = .busy → (∀ a, a < s.ilen.toNat → ∃ b, s.ibuf.read a = some b) →
    ∃ t : State, sequencerStep s = .next t ∧
      (t.status = .doneOk ∨ t.status = .doneErr ∨
        t.status = .busy ∧ s.pos.toNat < t.pos.toNat ∧ t.pos.toNat ≤ s.ilen.toNat)

/-- R16: the transitions of `STATUS` are those of the spec and no others. -/
def Obligations.StatusTransitions : Prop :=
  ∀ s t : State, step s = .next t → t.status ≠ s.status →
    (s.status ≠ .busy ∧ (t.status = .busy ∨ t.status = .doneErr) ∧
      ∃ a rest, s.host = a :: rest ∧ PresentsMessage a) ∨
    (s.status = .busy ∧ t.status = .doneOk ∧ s.pos = s.ilen) ∨
    (s.status = .busy ∧ t.status = .doneErr ∧ s.mode = .dec ∧ s.pos.toNat < s.ilen.toNat) ∨
    (t.status = .idle ∧ ∃ rest, s.host = .reset :: rest)

/-- R120: only `DECODE` raises `InvalidInput`, from its accept step on a bad length or from a block
step; it leaves `OLEN = 0`, no cell of `OBUF` with a value and `IBUF` as it was (R124), and is reported
by `STATUS` and an all-zero result word. -/
def Obligations.OnlyDecodeRaisesInvalidInput : Prop :=
  ∀ s t : State, step s = .next t → t.status = .doneErr → s.status ≠ .doneErr →
    t.mode = .dec ∧ t.olen = 0 ∧ t.obuf = [] ∧ t.ibuf = s.ibuf ∧ t.status.code = 3 ∧
    t.reply = some (.result .fail) ∧ Result.fail.word = 0 ∧
    ((∃ w len rest, s.host = .present w :: rest ∧ decode w = .ok (.decode len) ∧
        len.toNat % 4 ≠ 0) ∨
      (s.status = .busy ∧ s.mode = .dec ∧ s.pos.toNat < s.ilen.toNat))

/-- R144: `IBUF` is changed by the host's writes and by reset alone. -/
def Obligations.BlockNeverWritesTheInputBuffer : Prop :=
  ∀ s t : State, step s = .next t → t.ibuf ≠ s.ibuf →
    ∃ a rest, s.host = a :: rest ∧ ((∃ i b, a = .writeCell i b) ∨ a = .reset)

/-- Outside a run the registers change by a message command and by reset alone, and so do the cells
of `OBUF`: a result stays readable until then (R13, R15, R146, R147). -/
def Obligations.ResultStaysUntilTheNextMessage : Prop :=
  ∀ s t : State, step s = .next t → s.status ≠ .busy →
    (¬ ∃ a rest, s.host = a :: rest ∧ (PresentsMessage a ∨ a = .reset)) →
    t.status = s.status ∧ t.mode = s.mode ∧ t.ilen = s.ilen ∧ t.pos = s.pos ∧ t.olen = s.olen ∧
      t.obuf = s.obuf

/-- The parameter of the block never changes (log entry 1). -/
def Obligations.ParameterIsConstant : Prop :=
  ∀ s t : State, step s = .next t → t.cfg = s.cfg

/-- Nothing that an earlier call left reaches the next one: the accept step of a message command
depends on the parameter, `IBUF` and the host alone (R93, R109, R125). -/
def Obligations.NoCrossCallState : Prop :=
  ∀ (s s' : State) (len : Len), s.cfg = s'.cfg → s.ibuf = s'.ibuf → s.host = s'.host →
    s.status ≠ .busy → s'.status ≠ .busy →
    exec (.encode len) s = exec (.encode len) s' ∧ exec (.decode len) s = exec (.decode len) s'

/-- R33: a run never reads `IBUF` at or above `ILEN`: two states that differ there alone take the
same step. -/
def Obligations.CellsAboveTheMessageAreNotRead : Prop :=
  ∀ (s : State) (m : Memory), (∀ a, a < s.ilen.toNat → m.read a = s.ibuf.read a) →
    (∀ t, sequencerStep s = .next t → sequencerStep { s with ibuf := m } = .next { t with ibuf := m }) ∧
    (∀ f, sequencerStep s = .fault f → sequencerStep { s with ibuf := m } = .fault f)

/-! ## Whole messages -/

/-- R96: a whole run of `ENCODE len` on a loaded message takes the accept step, `ceil(len / 3)` block
steps and the finish step, and ends with the text `encode(B)` in `OBUF`. That the steps are taken
under one `WAIT`, which stays on the host's list, is the model's choice (log entry 9). -/
def Obligations.EncodeRunEndsInTheClosedForm : Prop :=
  ∀ (s : State) (len : Len) (B : List Byte) (rest : List HostAction), s.Inv → s.status ≠ .busy →
    len.toNat ≤ s.cfg.maxLen → s.ibuf.readMany 0 len.toNat = some B →
    s.host = .present (encode (.encode len)) :: .wait :: rest →
    ∃ t : State, steps (ceilThird len.toNat + 2) s = .next t ∧
      t.status = .doneOk ∧ t.mode = .enc ∧ t.ilen = len ∧ t.pos = len ∧
      t.olen.toNat = 4 * ceilThird len.toNat ∧
      t.obuf.readMany 0 t.olen.toNat = some (encodeByGroups B) ∧
      t.reply = some (.result (.length t.olen)) ∧
      t.ibuf = s.ibuf ∧ t.cfg = s.cfg ∧ t.host = .wait :: rest

/-- R112, the success: a whole run of `DECODE len` on a text that decodes takes the accept step,
`len / 4` block steps and the finish step, and ends with the decoded bytes in `OBUF`. That the steps
are taken under one `WAIT`, which stays on the host's list, is the model's choice (log entry 9). -/
def Obligations.DecodeRunEndsInTheClosedForm : Prop :=
  ∀ (s : State) (len : Len) (T ys : List Byte) (rest : List HostAction), s.Inv →
    s.status ≠ .busy → len.toNat ≤ s.cfg.maxLen → s.ibuf.readMany 0 len.toNat = some T →
    decodeByGroups T = some ys →
    s.host = .present (encode (.decode len)) :: .wait :: rest →
    ∃ t : State, steps (len.toNat / 4 + 2) s = .next t ∧
      t.status = .doneOk ∧ t.mode = .dec ∧ t.ilen = len ∧ t.pos = len ∧
      t.olen.toNat = ys.length ∧ t.obuf.readMany 0 t.olen.toNat = some ys ∧
      t.reply = some (.result (.length t.olen)) ∧
      t.ibuf = s.ibuf ∧ t.cfg = s.cfg ∧ t.host = .wait :: rest

/-- R112, the failure, with R119: a whole run of `DECODE len` on a text that does not decode ends in
`DONE_ERR` with no result data, at the accept step for a bad length and otherwise at the first group
that does not decode, whose index `POS` keeps. That the steps are taken under one `WAIT`, which stays
on the host's list, is the model's choice (log entry 9). -/
def Obligations.DecodeRunEndsInInvalidInput : Prop :=
  ∀ (s : State) (len : Len) (T : List Byte) (rest : List HostAction), s.Inv →
    s.status ≠ .busy → len.toNat ≤ s.cfg.maxLen → s.ibuf.readMany 0 len.toNat = some T →
    decodeByGroups T = none →
    s.host = .present (encode (.decode len)) :: .wait :: rest →
    ∃ (t : State) (k : Nat), steps k s = .next t ∧
      t.status = .doneErr ∧ t.mode = .dec ∧ t.ilen = len ∧ t.olen = 0 ∧
      (∀ a, t.obuf.read a = none) ∧ t.reply = some (.result .fail) ∧
      t.ibuf = s.ibuf ∧ t.cfg = s.cfg ∧ t.host = .wait :: rest ∧
      (len.toNat % 4 ≠ 0 → t.pos = 0 ∧ k = 1) ∧
      (len.toNat % 4 = 0 → firstBadGroup T = some t.pos.toNat ∧ k = t.pos.toNat / 4 + 2)

/-- R98, R115: the empty message encodes to the empty text and the empty text decodes to the empty
message, with no cell of `IBUF` written. That the finish step is taken under one `WAIT`, which stays on
the host's list, is the model's choice (log entry 9). -/
def Obligations.EmptyMessagesSucceed : Prop :=
  ∀ (s : State) (i : Instr) (rest : List HostAction), i = .encode 0 ∨ i = .decode 0 →
    s.status ≠ .busy → s.host = .present (encode i) :: .wait :: rest →
    ∃ t : State, steps 2 s = .next t ∧ t.status = .doneOk ∧ t.olen = 0 ∧ t.obuf = [] ∧
      t.reply = some (.result (.length 0)) ∧ t.ibuf = s.ibuf ∧ t.host = .wait :: rest

/-- R96: the recursive closed form of the model is the one by indices, with the length law
`len(encode(B)) = 4 * ceil(len(B) / 3)`. -/
def Obligations.EncodedTextIsItsGroupsInOrder : Prop :=
  ∀ B : List Byte, encodeMessage B = encodeByGroups B ∧
    (encodeMessage B).length = 4 * ((B.length + 2) / 3)

/-- R112: the recursive closed form of the model is the one by indices. -/
def Obligations.DecodedBytesAreTheGroupsInOrder : Prop :=
  ∀ T : List Byte, decodeMessage T = decodeByGroups T

/-- R97: every character of `encode(B)` is of the alphabet or the padding character, and the padding
characters are exactly the last two for `len mod 3 = 1`, the last one for 2, and none for 0. -/
def Obligations.EncodedTextIsClosedAndPadded : Prop :=
  ∀ B : List Byte,
    (∀ c ∈ encodeMessage B, c ∈ alphabet ∨ c = 0x3D) ∧
    ∀ i, i < (encodeMessage B).length →
      ((encodeMessage B)[i]? = some 0x3D ↔
        (encodeMessage B).length ≤
          i + (if B.length % 3 = 1 then 2 else if B.length % 3 = 2 then 1 else 0))

/-- R113: the length of what a text decodes to. -/
def Obligations.DecodedLength : Prop :=
  ∀ T ys : List Byte, decodeMessage T = some ys →
    (0 < T.length → trailingPads T ≤ 2 ∧ ys.length = 3 * (T.length / 4) - trailingPads T) ∧
    (T.length = 0 → ys.length = 0) ∧ ys.length ≤ 3 * T.length / 4

/-- R117: `decode(T)` is `InvalidInput` exactly when one of the five causes holds. -/
def Obligations.DecodeRejectsExactly : Prop :=
  ∀ T : List Byte, decodeMessage T = none ↔ Rejected T

/-- The round trip of the closed forms: decoding the encoding of any byte sequence gives it back. -/
def Obligations.DecodeUndoesEncode : Prop :=
  ∀ B : List Byte, decodeMessage (encodeMessage B) = some B

/-- R114: the round trip through the block: a run of `ENCODE`, the host's copy of `OBUF` to `IBUF`,
and a run of `DECODE OLEN` end in `DONE_OK` with the message in `OBUF`. That the host's moves are a
list, and that a run goes on step by step when the list is empty, is the model's choice (log entries 2,
10), and the counts of steps rest on it. -/
def Obligations.RoundTripThroughTheBuffers : Prop :=
  ∀ (s : State) (len : Len) (B : List Byte), s.Inv → s.status ≠ .busy →
    len.toNat ≤ s.cfg.maxLen → 4 * ceilThird len.toNat ≤ s.cfg.maxLen →
    s.ibuf.readMany 0 len.toNat = some B →
    ∃ (t : State) (T : List Byte),
      steps (ceilThird len.toNat + 2) { s with host := [.present (encode (.encode len))] } =
        .next t ∧
      t.status = .doneOk ∧ t.obuf.readMany 0 t.olen.toNat = some T ∧
      ∃ v : State,
        steps (T.length + (t.olen.toNat / 4 + 2))
          { t with host := loadMoves 0 T ++ [.present (encode (.decode t.olen))] } = .next v ∧
        v.status = .doneOk ∧ v.olen = len ∧ v.obuf.readMany 0 v.olen.toNat = some B

/-! ## Written programs (spec/30_encoding.md R58, R59) -/

/-- R58: a command line makes the host present one word, which decodes to the command with the
operands of the line, the count of operands as `n` or `m`, and absent lanes 0. That other counts of
operands, which R58 does not list, are no line is the model's choice (log entry 15). -/
def Obligations.CommandLinesPresentTheirCommand : Prop :=
  (∀ bs : List Byte, 1 ≤ bs.length → bs.length ≤ 3 → ∃ w w',
    (Line.gather bs).moves = some [.present w] ∧
    decode w = .ok (.gather (BitVec.ofNat 2 bs.length) (bs.getD 0 0) (bs.getD 1 0) (bs.getD 2 0)) ∧
    (Line.encblk bs).moves = some [.present w'] ∧
    decode w' = .ok (.encblk (BitVec.ofNat 2 bs.length) (bs.getD 0 0) (bs.getD 1 0) (bs.getD 2 0))) ∧
  (∀ bs : List Byte, bs.length = 0 ∨ 3 < bs.length →
    (Line.gather bs).moves = none ∧ (Line.encblk bs).moves = none) ∧
  (∀ vs : List Sym, 2 ≤ vs.length → vs.length ≤ 4 → ∃ w l0 l1 l2 l3,
    (Line.scatter vs).moves = some [.present w] ∧
    decode w = .ok (.scatter (BitVec.ofNat 3 vs.length) l0 l1 l2 l3) ∧
    [l0.toNat, l1.toNat, l2.toNat, l3.toNat] =
      vs.map BitVec.toNat ++ List.replicate (4 - vs.length) 0) ∧
  (∀ vs : List Sym, vs.length < 2 ∨ 4 < vs.length → (Line.scatter vs).moves = none) ∧
  (∀ (l : Line) (i : Instr),
    (l, i) ∈ ([(.padchar, .padchar)] : List (Line × Instr)) ∨
    (∃ v, l = .charfor v ∧ i = .charfor v) ∨ (∃ c, l = .valuefor c ∧ i = .valuefor c) ∨
    (∃ c0 c1 c2 c3, l = .decblk c0 c1 c2 c3 ∧ i = .decblk false c0 c1 c2 c3) ∨
    (∃ c0 c1 c2 c3, l = .decblkF c0 c1 c2 c3 ∧ i = .decblk true c0 c1 c2 c3) ∨
    (∃ len, l = .encode len ∧ i = .encode len) ∨ (∃ len, l = .decode len ∧ i = .decode len) →
    ∃ w, l.moves = some [.present w] ∧ decode w = .ok i)

/-- R59: `HLOAD` writes the string from index 0 on: from a state with no run in progress its moves
end with the string in `IBUF[0 .. len-1]` and every other cell as it was. -/
def Obligations.HloadLoadsTheMessage : Prop :=
  ∀ (s : State) (bs : List Byte), s.status ≠ .busy → bs.length ≤ s.cfg.maxLen →
    ∃ (ms : List HostAction) (t : State), (Line.hload bs).moves = some ms ∧
      steps bs.length { s with host := ms } = .next t ∧
      t.ibuf.readMany 0 bs.length = some bs ∧
      (∀ a, bs.length ≤ a → t.ibuf.read a = s.ibuf.read a) ∧
      t = { s with host := [], ibuf := t.ibuf, reply := t.reply }
end

