-- ==== Sys2Proof/Laws/Blocks.lean ====
section
/-! SUPPORT. The lengths of what the block functions answer: the counts of spec/41_repacker.md R81,
R84, R88, spec/42_encoder.md R90 and spec/43_decoder.md R106. -/

namespace Sys2Proof.Machine

theorem gather_length {n : Nat} (b0 b1 b2 : Byte) (h : n ≤ 3) :
    (gather n b0 b1 b2).length = n + 1 := by
  simp only [gather, List.length_take, List.length_map, List.length_cons, List.length_nil]
  omega

theorem scatter_length {m : Nat} (v0 v1 v2 v3 : Sym) (h : m ≤ 4) :
    (scatter m v0 v1 v2 v3).length = m - 1 := by
  simp only [scatter, List.length_take, List.length_cons, List.length_nil]
  omega

/-- A block of 1, 2 or 3 bytes gives exactly four characters (R90). -/
theorem encodeBlock_length {n : Nat} (b0 b1 b2 : Byte) (h : n ≤ 3) :
    (encodeBlock n b0 b1 b2).length = 4 := by
  simp only [encodeBlock, List.length_append, List.length_map, List.length_replicate,
    gather_length b0 b1 b2 h]
  omega

theorem padCount_le (c0 c1 c2 c3 : Byte) : padCount c0 c1 c2 c3 ≤ 4 := by
  simp only [padCount]
  repeat' split
  all_goals omega

/-- A block that decodes has at most two padding characters, none unless it is final, and gives
`3 - p` bytes (R102, R103, R106). -/
theorem decodeBlock_some {c0 c1 c2 c3 : Byte} {final : Bool} {ys : List Byte}
    (h : decodeBlock c0 c1 c2 c3 final = some ys) :
    padCount c0 c1 c2 c3 ≤ 2 ∧ (0 < padCount c0 c1 c2 c3 → final = true) ∧
      ys.length = 3 - padCount c0 c1 c2 c3 := by
  simp only [decodeBlock] at h
  split at h
  · cases h
  · rename_i hf
    split at h
    · cases h
    · rename_i hp
      split at h
      · cases h
      · cases h
        refine ⟨by omega, fun h0 => ?_, ?_⟩
        · cases final
          · exact absurd ⟨h0, rfl⟩ hf
          · rfl
        · rw [scatter_length _ _ _ _ (by omega)]
          omega

end Sys2Proof.Machine
end

