-- ==== Sys2Proof/Laws/Memory.lean ====
section
/-! SUPPORT. The laws of a buffer: read after write, the canonical form, and sequences of cells. -/

namespace Sys2Proof.Machine

@[simp] theorem read_nil (i : Nat) : Memory.read [] i = none := rfl

theorem read_write_same (m : Memory) (i : Nat) (b : Byte) : (m.write i b).read i = some b := by
  induction m with
  | nil => simp [Memory.write, Memory.read]
  | cons c rest ih =>
    obtain ⟨j, x⟩ := c
    simp only [Memory.write]
    split
    · simp [Memory.read]
    · split
      · simp [Memory.read]
      · rename_i h
        simp [Memory.read, h, ih]

theorem read_write_other (m : Memory) {i j : Nat} (b : Byte) (h : j ≠ i) :
    (m.write i b).read j = m.read j := by
  induction m with
  | nil => simp [Memory.write, Memory.read, h]
  | cons c rest ih =>
    obtain ⟨k, x⟩ := c
    simp only [Memory.write]
    split
    · simp [Memory.read, h]
    · split
      · rename_i hk
        subst hk
        simp [Memory.read, h]
      · simp [Memory.read, ih]

/-- A cell of the written buffer is the written one or one of before. -/
theorem mem_write {m : Memory} {i : Nat} {b : Byte} {c : Host.Cell} (h : c ∈ m.write i b) :
    c = (i, b) ∨ c ∈ m := by
  induction m with
  | nil => simpa [Memory.write] using h
  | cons d rest ih =>
    obtain ⟨k, x⟩ := d
    simp only [Memory.write] at h
    split at h
    · simpa using h
    · split at h
      · rcases List.mem_cons.1 h with h | h
        · exact .inl h
        · exact .inr (List.mem_cons_of_mem _ h)
      · rcases List.mem_cons.1 h with h | h
        · exact .inr (h ▸ List.mem_cons_self)
        · exact (ih h).imp id (List.mem_cons_of_mem _)

/-- A write keeps the canonical form. -/
theorem write_wf {m : Memory} (i : Nat) (b : Byte) (h : m.wf) : (m.write i b).wf := by
  induction m with
  | nil => simp [Memory.write, Memory.wf]
  | cons d rest ih =>
    obtain ⟨k, x⟩ := d
    obtain ⟨hd, hrest⟩ := List.pairwise_cons.1 h
    simp only [Memory.write]
    split
    · rename_i hik
      refine List.pairwise_cons.2 ⟨fun c hc => ?_, h⟩
      rcases List.mem_cons.1 hc with rfl | hc
      · exact hik
      · exact hik.trans (hd c hc)
    · split
      · rename_i hik
        subst hik
        exact List.pairwise_cons.2 ⟨hd, hrest⟩
      · rename_i h1 h2
        refine List.pairwise_cons.2 ⟨fun c hc => ?_, ih hrest⟩
        rcases mem_write hc with rfl | hc
        · show k < i
          omega
        · exact hd c hc

theorem writeMany_wf {m : Memory} (addr : Nat) (bs : List Byte) (h : m.wf) :
    (m.writeMany addr bs).wf := by
  induction bs generalizing m addr with
  | nil => exact h
  | cons b bs ih => exact ih _ (write_wf _ _ h)

/-- A write past the last listed cell appends. -/
theorem write_append {m : Memory} {i : Nat} (b : Byte) (h : ∀ c ∈ m, c.1 < i) :
    m.write i b = m ++ [(i, b)] := by
  induction m with
  | nil => rfl
  | cons d rest ih =>
    obtain ⟨k, x⟩ := d
    have hk : k < i := h _ List.mem_cons_self
    simp only [Memory.write, if_neg (by omega : ¬ i < k), if_neg (by omega : ¬ i = k),
      ih (fun c hc => h c (List.mem_cons_of_mem _ hc)), List.cons_append]

theorem read_writeMany_outside (m : Memory) (addr : Nat) (bs : List Byte) {j : Nat}
    (h : j < addr ∨ addr + bs.length ≤ j) : (m.writeMany addr bs).read j = m.read j := by
  induction bs generalizing m addr with
  | nil => rfl
  | cons b bs ih =>
    simp only [List.length_cons] at h
    rw [Memory.writeMany, ih _ _ (by omega), read_write_other _ _ (by omega)]

theorem read_writeMany_inside (m : Memory) (addr : Nat) (bs : List Byte) {k : Nat}
    (h : k < bs.length) : (m.writeMany addr bs).read (addr + k) = some bs[k] := by
  induction bs generalizing m addr k with
  | nil => simp at h
  | cons b bs ih =>
    rw [Memory.writeMany]
    cases k with
    | zero =>
      rw [read_writeMany_outside _ _ _ (by omega)]
      simpa using read_write_same m addr b
    | succ k =>
      have := ih (m.write addr b) (addr + 1) (k := k) (by simpa using h)
      rw [show addr + (k + 1) = addr + 1 + k by omega, this]
      simp

/-- The listed indices after appending to a buffer that lists exactly `0 .. n-1`. -/
theorem writeMany_cells {m : Memory} {n : Nat} (bs : List Byte)
    (h : m.map Prod.fst = List.range n) :
    (m.writeMany n bs).map Prod.fst = List.range (n + bs.length) := by
  induction bs generalizing m n with
  | nil => simpa [Memory.writeMany] using h
  | cons b bs ih =>
    have hlt : ∀ c ∈ m, c.1 < n := fun c hc => by
      have : c.1 ∈ m.map Prod.fst := List.mem_map_of_mem hc
      simpa [h] using this
    rw [Memory.writeMany, ih (n := n + 1) (by rw [write_append b hlt]; simp [h, List.range_succ]),
      List.length_cons, show n + 1 + bs.length = n + (bs.length + 1) by omega]

theorem readMany_succ {m : Memory} {addr n : Nat} {bs : List Byte} :
    m.readMany addr (n + 1) = some bs ↔
      ∃ b rest, bs = b :: rest ∧ m.read addr = some b ∧ m.readMany (addr + 1) n = some rest := by
  simp only [Memory.readMany]
  split
  · rename_i b rest hb hr
    simp [hb, hr, eq_comm]
  · rename_i hno
    constructor
    · intro h
      cases h
    · rintro ⟨b, rest, -, hb, hr⟩
      exact absurd hr (hno b rest hb)

theorem readMany_length {m : Memory} {addr n : Nat} {bs : List Byte}
    (h : m.readMany addr n = some bs) : bs.length = n := by
  induction n generalizing addr bs with
  | zero => cases h; rfl
  | succ n ih =>
    obtain ⟨b, rest, rfl, -, hr⟩ := readMany_succ.1 h
    simp [ih hr]

/-- A sequence of cells read is cell by cell what the buffer holds. -/
theorem readMany_iff {m : Memory} {addr n : Nat} {bs : List Byte} :
    m.readMany addr n = some bs ↔ bs.length = n ∧ ∀ k (h : k < bs.length),
      m.read (addr + k) = some bs[k] := by
  induction n generalizing addr bs with
  | zero =>
    simp only [Memory.readMany, Option.some.injEq]
    constructor
    · rintro rfl
      simp
    · rintro ⟨h, -⟩
      exact (List.length_eq_zero_iff.1 h).symm
  | succ n ih =>
    rw [readMany_succ]
    constructor
    · rintro ⟨b, rest, rfl, hb, hr⟩
      obtain ⟨hl, hk⟩ := ih.1 hr
      refine ⟨by simp [hl], fun k h => ?_⟩
      cases k with
      | zero => simpa using hb
      | succ k =>
        have := hk k (by simpa using h)
        rw [show addr + (k + 1) = addr + 1 + k by omega, this]
        simp
    · rintro ⟨hl, hk⟩
      cases bs with
      | nil => simp at hl
      | cons b rest =>
        refine ⟨b, rest, rfl, hk 0 (Nat.zero_lt_succ _), ih.2 ⟨by simpa using hl, fun k h => ?_⟩⟩
        have := hk (k + 1) (by simpa using h)
        rw [show addr + 1 + k = addr + (k + 1) by omega, this]
        simp

/-- A canonical buffer that lists exactly the indices `0 .. n-1` holds a value at each of them. -/
theorem read_some_of_cells {m : Memory} {n i : Nat} (h : m.map Prod.fst = List.range n)
    (hi : i < n) : ∃ b, m.read i = some b := by
  have hmem : i ∈ m.map Prod.fst := by simpa [h] using hi
  clear h hi
  induction m with
  | nil => simp at hmem
  | cons c rest ih =>
    obtain ⟨k, x⟩ := c
    simp only [Memory.read]
    split
    · exact ⟨x, rfl⟩
    · rename_i hne
      refine ih ?_
      simpa [hne] using hmem

theorem readMany_some_of_cells {m : Memory} {n : Nat} (h : m.map Prod.fst = List.range n) :
    ∃ bs, m.readMany 0 n = some bs := by
  suffices ∀ k addr, addr + k = n → ∃ bs, m.readMany addr k = some bs from this n 0 (by omega)
  intro k
  induction k with
  | zero => exact fun _ _ => ⟨[], rfl⟩
  | succ k ih =>
    intro addr ha
    obtain ⟨b, hb⟩ := read_some_of_cells h (i := addr) (by omega)
    obtain ⟨bs, hbs⟩ := ih (addr + 1) (by omega)
    exact ⟨b :: bs, readMany_succ.2 ⟨b, bs, rfl, hb, hbs⟩⟩

end Sys2Proof.Machine
end

