-- ==== Sys2Proof/Laws/State.lean ====
section
/-! SUPPORT. One lemma per field per shared update of State, each true by unfolding. -/

namespace Sys2Proof.Machine

variable (s : State)

/-! ## `silent` -/

@[simp] theorem silent_cfg : (silent s).cfg = s.cfg := rfl
@[simp] theorem silent_status : (silent s).status = s.status := rfl
@[simp] theorem silent_mode : (silent s).mode = s.mode := rfl
@[simp] theorem silent_ilen : (silent s).ilen = s.ilen := rfl
@[simp] theorem silent_pos : (silent s).pos = s.pos := rfl
@[simp] theorem silent_olen : (silent s).olen = s.olen := rfl
@[simp] theorem silent_ibuf : (silent s).ibuf = s.ibuf := rfl
@[simp] theorem silent_obuf : (silent s).obuf = s.obuf := rfl
@[simp] theorem silent_host : (silent s).host = s.host := rfl
@[simp] theorem silent_reply : (silent s).reply = none := rfl

/-! ## `deliver` -/

@[simp] theorem deliver_cfg (r : Result) : (deliver r s).cfg = s.cfg := rfl
@[simp] theorem deliver_status (r : Result) : (deliver r s).status = s.status := rfl
@[simp] theorem deliver_mode (r : Result) : (deliver r s).mode = s.mode := rfl
@[simp] theorem deliver_ilen (r : Result) : (deliver r s).ilen = s.ilen := rfl
@[simp] theorem deliver_pos (r : Result) : (deliver r s).pos = s.pos := rfl
@[simp] theorem deliver_olen (r : Result) : (deliver r s).olen = s.olen := rfl
@[simp] theorem deliver_ibuf (r : Result) : (deliver r s).ibuf = s.ibuf := rfl
@[simp] theorem deliver_obuf (r : Result) : (deliver r s).obuf = s.obuf := rfl
@[simp] theorem deliver_host (r : Result) : (deliver r s).host = s.host := rfl
@[simp] theorem deliver_reply (r : Result) : (deliver r s).reply = some (.result r) := rfl

/-! ## `deliverRegisters` -/

@[simp] theorem deliverRegisters_cfg : (deliverRegisters s).cfg = s.cfg := rfl
@[simp] theorem deliverRegisters_status : (deliverRegisters s).status = s.status := rfl
@[simp] theorem deliverRegisters_mode : (deliverRegisters s).mode = s.mode := rfl
@[simp] theorem deliverRegisters_ilen : (deliverRegisters s).ilen = s.ilen := rfl
@[simp] theorem deliverRegisters_pos : (deliverRegisters s).pos = s.pos := rfl
@[simp] theorem deliverRegisters_olen : (deliverRegisters s).olen = s.olen := rfl
@[simp] theorem deliverRegisters_ibuf : (deliverRegisters s).ibuf = s.ibuf := rfl
@[simp] theorem deliverRegisters_obuf : (deliverRegisters s).obuf = s.obuf := rfl
@[simp] theorem deliverRegisters_host : (deliverRegisters s).host = s.host := rfl
@[simp] theorem deliverRegisters_reply :
    (deliverRegisters s).reply = some (.registers s.status.code s.mode.code s.ilen s.pos s.olen) := rfl

/-! ## `acceptMessage` -/

@[simp] theorem acceptMessage_cfg (d : Mode) (len : Len) :
    (acceptMessage d len s).cfg = s.cfg := rfl
@[simp] theorem acceptMessage_status (d : Mode) (len : Len) :
    (acceptMessage d len s).status = .busy := rfl
@[simp] theorem acceptMessage_mode (d : Mode) (len : Len) : (acceptMessage d len s).mode = d := rfl
@[simp] theorem acceptMessage_ilen (d : Mode) (len : Len) :
    (acceptMessage d len s).ilen = len := rfl
@[simp] theorem acceptMessage_pos (d : Mode) (len : Len) : (acceptMessage d len s).pos = 0 := rfl
@[simp] theorem acceptMessage_olen (d : Mode) (len : Len) : (acceptMessage d len s).olen = 0 := rfl
@[simp] theorem acceptMessage_ibuf (d : Mode) (len : Len) :
    (acceptMessage d len s).ibuf = s.ibuf := rfl
@[simp] theorem acceptMessage_obuf (d : Mode) (len : Len) : (acceptMessage d len s).obuf = [] := rfl
@[simp] theorem acceptMessage_host (d : Mode) (len : Len) :
    (acceptMessage d len s).host = s.host := rfl
@[simp] theorem acceptMessage_reply (d : Mode) (len : Len) :
    (acceptMessage d len s).reply = none := rfl

/-! ## `finishRun` -/

@[simp] theorem finishRun_cfg : (finishRun s).cfg = s.cfg := rfl
@[simp] theorem finishRun_status : (finishRun s).status = .doneOk := rfl
@[simp] theorem finishRun_mode : (finishRun s).mode = s.mode := rfl
@[simp] theorem finishRun_ilen : (finishRun s).ilen = s.ilen := rfl
@[simp] theorem finishRun_pos : (finishRun s).pos = s.pos := rfl
@[simp] theorem finishRun_olen : (finishRun s).olen = s.olen := rfl
@[simp] theorem finishRun_ibuf : (finishRun s).ibuf = s.ibuf := rfl
@[simp] theorem finishRun_obuf : (finishRun s).obuf = s.obuf := rfl
@[simp] theorem finishRun_host : (finishRun s).host = s.host := rfl
@[simp] theorem finishRun_reply : (finishRun s).reply = some (.result (.length s.olen)) := rfl

/-! ## `raiseInvalidInput` -/

@[simp] theorem raiseInvalidInput_cfg : (raiseInvalidInput s).cfg = s.cfg := rfl
@[simp] theorem raiseInvalidInput_status : (raiseInvalidInput s).status = .doneErr := rfl
@[simp] theorem raiseInvalidInput_mode : (raiseInvalidInput s).mode = s.mode := rfl
@[simp] theorem raiseInvalidInput_ilen : (raiseInvalidInput s).ilen = s.ilen := rfl
@[simp] theorem raiseInvalidInput_pos : (raiseInvalidInput s).pos = s.pos := rfl
@[simp] theorem raiseInvalidInput_olen : (raiseInvalidInput s).olen = 0 := rfl
@[simp] theorem raiseInvalidInput_ibuf : (raiseInvalidInput s).ibuf = s.ibuf := rfl
@[simp] theorem raiseInvalidInput_obuf : (raiseInvalidInput s).obuf = [] := rfl
@[simp] theorem raiseInvalidInput_host : (raiseInvalidInput s).host = s.host := rfl
@[simp] theorem raiseInvalidInput_reply : (raiseInvalidInput s).reply = some (.result .fail) := rfl

/-! ## `resetBlock` -/

@[simp] theorem resetBlock_cfg : (resetBlock s).cfg = s.cfg := rfl
@[simp] theorem resetBlock_status : (resetBlock s).status = .idle := rfl
@[simp] theorem resetBlock_mode : (resetBlock s).mode = .enc := rfl
@[simp] theorem resetBlock_ilen : (resetBlock s).ilen = 0 := rfl
@[simp] theorem resetBlock_pos : (resetBlock s).pos = 0 := rfl
@[simp] theorem resetBlock_olen : (resetBlock s).olen = 0 := rfl
@[simp] theorem resetBlock_ibuf : (resetBlock s).ibuf = [] := rfl
@[simp] theorem resetBlock_obuf : (resetBlock s).obuf = [] := rfl
@[simp] theorem resetBlock_host : (resetBlock s).host = s.host := rfl
@[simp] theorem resetBlock_reply : (resetBlock s).reply = none := rfl

/-! ## `presentNext` -/

@[simp] theorem presentNext_cfg (w : Word40) : (presentNext w s).cfg = s.cfg := rfl
@[simp] theorem presentNext_status (w : Word40) : (presentNext w s).status = s.status := rfl
@[simp] theorem presentNext_mode (w : Word40) : (presentNext w s).mode = s.mode := rfl
@[simp] theorem presentNext_ilen (w : Word40) : (presentNext w s).ilen = s.ilen := rfl
@[simp] theorem presentNext_pos (w : Word40) : (presentNext w s).pos = s.pos := rfl
@[simp] theorem presentNext_olen (w : Word40) : (presentNext w s).olen = s.olen := rfl
@[simp] theorem presentNext_ibuf (w : Word40) : (presentNext w s).ibuf = s.ibuf := rfl
@[simp] theorem presentNext_obuf (w : Word40) : (presentNext w s).obuf = s.obuf := rfl
@[simp] theorem presentNext_host (w : Word40) : (presentNext w s).host = .present w :: s.host := rfl
@[simp] theorem presentNext_reply (w : Word40) : (presentNext w s).reply = s.reply := rfl

end Sys2Proof.Machine
end

