-- ==== Sys2Proof/Laws/Ops.lean ====
section
/-! SUPPORT. What each shared operation can do, said once: later proofs cite these and do not unfold
the operations. -/

namespace Sys2Proof.Machine

/-- A command that is taken meets the three conditions, and the outcome is the command's own. -/
theorem takeCommand_next {i : Instr} {s t : State} {x : StepResult} (h : takeCommand i s x = .next t) :
    i.wf = true ∧ messageLength i ≤ s.cfg.maxLen ∧ s.status ≠ .busy ∧ x = .next t := by
  simp only [takeCommand] at h
  split at h
  · cases h
  · rename_i hw
    split at h
    · cases h
    · split at h
      · cases h
      · exact ⟨by simp [Instr.wf, hw], by omega, by assumption, h⟩

/-- Under the three conditions the command is taken (R60). -/
theorem takeCommand_of {i : Instr} {s : State} (x : StepResult) (hw : i.wf = true)
    (hl : messageLength i ≤ s.cfg.maxLen) (hb : s.status ≠ .busy) : takeCommand i s x = x := by
  have hn : i.illFormed = none := by simpa [Instr.wf] using hw
  simp [takeCommand, hn, hb, Nat.not_lt.2 hl]

/-- Taking a command never faults by itself. -/
theorem takeCommand_fault {i : Instr} {s : State} {x : StepResult} {f : Fault}
    (h : takeCommand i s x = .fault f) : x = .fault f := by
  simp only [takeCommand] at h
  split at h
  · cases h
  · split at h
    · cases h
    · split at h
      · cases h
      · exact h

theorem readMessage_ok {n : Nat} {s : State} {bs : List Byte} (h : readMessage n s = .ok bs) :
    s.pos.toNat + n ≤ s.ilen.toNat ∧ s.ibuf.readMany s.pos.toNat n = some bs := by
  simp only [readMessage] at h
  split at h
  · split at h
    · cases h
      exact ⟨by assumption, by assumption⟩
    · cases h
  · cases h

theorem readMessage_error {n : Nat} {s : State} {f : Fault} (h : readMessage n s = .error f) :
    (f = .unwrittenCell ∧ s.pos.toNat + n ≤ s.ilen.toNat ∧
      s.ibuf.readMany s.pos.toNat n = none) ∨
    (f = .readPastMessage ∧ s.ilen.toNat < s.pos.toNat + n) := by
  simp only [readMessage] at h
  split at h
  · split at h
    · cases h
    · cases h
      exact .inl ⟨rfl, by assumption, by assumption⟩
  · cases h
    exact .inr ⟨rfl, by omega⟩

theorem appendOutput_ok {bs : List Byte} {s t : State} (h : appendOutput bs s = .ok t) :
    s.olen.toNat + bs.length ≤ s.cfg.ocap ∧
      t = { s with obuf := s.obuf.writeMany s.olen.toNat bs
                   olen := s.olen + BitVec.ofNat 32 bs.length } := by
  simp only [appendOutput] at h
  split at h
  · cases h
    exact ⟨by assumption, rfl⟩
  · cases h

theorem appendOutput_error {bs : List Byte} {s : State} {f : Fault}
    (h : appendOutput bs s = .error f) :
    f = .writePastBuffer ∧ s.cfg.ocap < s.olen.toNat + bs.length := by
  simp only [appendOutput] at h
  split at h
  · cases h
  · cases h
    exact ⟨rfl, by omega⟩

end Sys2Proof.Machine
end

