-- ==== Sys2Proof/Laws/PerInstr.lean ====
section
/-! SUPPORT. Facts about every command as syntax, one lemma per constructor (LAWS.json). -/

namespace Sys2Proof.Laws

/-- The word of a command matches the row of its command (R53): the operation code stands in its
place and every must-be-zero bit is 0. -/
def EncodedWordMatchesItsRow.Statement (i : Instr) : Prop :=
  Sys2Proof.encode i &&& (rowOf i).mask = (rowOf i).pattern

theorem EncodedWordMatchesItsRow.charfor (v8 : Byte) :
    EncodedWordMatchesItsRow.Statement (.charfor v8) := by
  refine BitVec.eq_of_getLsbD_eq (fun k hk => ?_)
  interval_cases k <;> simp only [Sys2Proof.encode, rowOf, laneWord, charforRow, BitVec.getLsbD_and,
      BitVec.getLsbD_append] <;> simp

theorem EncodedWordMatchesItsRow.valuefor (c : Byte) :
    EncodedWordMatchesItsRow.Statement (.valuefor c) := by
  refine BitVec.eq_of_getLsbD_eq (fun k hk => ?_)
  interval_cases k <;> simp only [Sys2Proof.encode, rowOf, laneWord, valueforRow, BitVec.getLsbD_and,
      BitVec.getLsbD_append] <;> simp

theorem EncodedWordMatchesItsRow.padchar :
    EncodedWordMatchesItsRow.Statement .padchar := by
  unfold EncodedWordMatchesItsRow.Statement
  decide

theorem EncodedWordMatchesItsRow.gather (n : BitVec 2) (b0 b1 b2 : Byte) :
    EncodedWordMatchesItsRow.Statement (.gather n b0 b1 b2) := by
  refine BitVec.eq_of_getLsbD_eq (fun k hk => ?_)
  interval_cases k <;> simp only [Sys2Proof.encode, rowOf, laneWord, gatherRow, BitVec.getLsbD_and,
      BitVec.getLsbD_append] <;> simp

theorem EncodedWordMatchesItsRow.scatter (m : BitVec 3) (l0 l1 l2 l3 : Byte) :
    EncodedWordMatchesItsRow.Statement (.scatter m l0 l1 l2 l3) := by
  refine BitVec.eq_of_getLsbD_eq (fun k hk => ?_)
  interval_cases k <;> simp only [Sys2Proof.encode, rowOf, laneWord, scatterRow, BitVec.getLsbD_and,
      BitVec.getLsbD_append] <;> simp

theorem EncodedWordMatchesItsRow.encblk (n : BitVec 2) (b0 b1 b2 : Byte) :
    EncodedWordMatchesItsRow.Statement (.encblk n b0 b1 b2) := by
  refine BitVec.eq_of_getLsbD_eq (fun k hk => ?_)
  interval_cases k <;> simp only [Sys2Proof.encode, rowOf, laneWord, encblkRow, BitVec.getLsbD_and,
      BitVec.getLsbD_append] <;> simp

theorem EncodedWordMatchesItsRow.decblk (final : Bool) (c0 c1 c2 c3 : Byte) :
    EncodedWordMatchesItsRow.Statement (.decblk final c0 c1 c2 c3) := by
  refine BitVec.eq_of_getLsbD_eq (fun k hk => ?_)
  cases final <;> interval_cases k <;>
    simp only [Sys2Proof.encode, rowOf, laneWord, decblkRow, BitVec.getLsbD_and,
      BitVec.getLsbD_append] <;> simp

theorem EncodedWordMatchesItsRow.encode (len : Len) :
    EncodedWordMatchesItsRow.Statement (.encode len) := by
  refine BitVec.eq_of_getLsbD_eq (fun k hk => ?_)
  interval_cases k <;> simp only [Sys2Proof.encode, rowOf, messageWord, encodeRow, BitVec.getLsbD_and,
      BitVec.getLsbD_append] <;> simp

theorem EncodedWordMatchesItsRow.decode (len : Len) :
    EncodedWordMatchesItsRow.Statement (.decode len) := by
  refine BitVec.eq_of_getLsbD_eq (fun k hk => ?_)
  interval_cases k <;> simp only [Sys2Proof.encode, rowOf, messageWord, decodeRow, BitVec.getLsbD_and,
      BitVec.getLsbD_append] <;> simp

end Sys2Proof.Laws
end

