-- ==== Sys2Proof/Laws/Step.lean ====
section
/-! SUPPORT. What a step can do, said once. `RunStep` lists the steps of the sequencer, `Moved` the
steps of the machine; `sequencerStep_next` and `step_next` are the inversions that every invariant
cites instead of unfolding the step. -/

namespace Sys2Proof.Machine

/-- The state after an encode block step that read `bs` (R94). -/
def afterEncodeBlock (s : State) (bs : List Byte) : State :=
  { s with
    obuf := s.obuf.writeMany s.olen.toNat
      (encodeBlock (encodeCount s) (byteLane bs 0) (byteLane bs 1) (byteLane bs 2))
    olen := s.olen + 4
    pos := s.pos + BitVec.ofNat 32 (encodeCount s)
    reply := none }

/-- The state after a decode block step that produced `ys` (R110). -/
def afterDecodeBlock (s : State) (ys : List Byte) : State :=
  { s with
    obuf := s.obuf.writeMany s.olen.toNat ys
    olen := s.olen + BitVec.ofNat 32 ys.length
    pos := s.pos + 4
    reply := none }

/-- The steps of a run. -/
inductive RunStep (s : State) : State → Prop where
  /-- an encode block step (R94) -/
  | encodeBlock (bs : List Byte) (mode : s.mode = .enc) (more : s.pos.toNat < s.ilen.toNat)
      (read : s.ibuf.readMany s.pos.toNat (encodeCount s) = some bs)
      (room : s.olen.toNat + 4 ≤ s.cfg.ocap) : RunStep s (afterEncodeBlock s bs)
  /-- a decode block step that succeeds (R110) -/
  | decodeBlock (cs ys : List Byte) (mode : s.mode = .dec) (more : s.pos.toNat + 4 ≤ s.ilen.toNat)
      (read : s.ibuf.readMany s.pos.toNat 4 = some cs)
      (ok : decodeBlock (byteLane cs 0) (byteLane cs 1) (byteLane cs 2) (byteLane cs 3)
        (finalGroup s) = some ys)
      (room : s.olen.toNat + ys.length ≤ s.cfg.ocap) : RunStep s (afterDecodeBlock s ys)
  /-- a decode block step that raises `InvalidInput` (R110, R124) -/
  | invalidInput (cs : List Byte) (mode : s.mode = .dec) (more : s.pos.toNat + 4 ≤ s.ilen.toNat)
      (read : s.ibuf.readMany s.pos.toNat 4 = some cs)
      (bad : decodeBlock (byteLane cs 0) (byteLane cs 1) (byteLane cs 2) (byteLane cs 3)
        (finalGroup s) = none) : RunStep s (raiseInvalidInput s)
  /-- the finish step of either direction (R95, R111) -/
  | finish (done : s.pos = s.ilen) : RunStep s (finishRun s)

theorem encodeCount_le (s : State) : encodeCount s ≤ 3 := Nat.min_le_left _ _

theorem encodeBlockStep_next {s t : State} (h : encodeBlockStep s = .next t) :
    ∃ bs, s.pos.toNat + encodeCount s ≤ s.ilen.toNat ∧
      s.ibuf.readMany s.pos.toNat (encodeCount s) = some bs ∧
      s.olen.toNat + 4 ≤ s.cfg.ocap ∧ t = afterEncodeBlock s bs := by
  simp only [encodeBlockStep] at h
  split at h
  · cases h
  · rename_i bs hr
    split at h
    · cases h
    · rename_i u hu
      cases h
      obtain ⟨hin, hread⟩ := readMessage_ok hr
      obtain ⟨hroom, rfl⟩ := appendOutput_ok hu
      rw [encodeBlock_length _ _ _ (encodeCount_le s)] at hroom
      refine ⟨bs, hin, hread, hroom, ?_⟩
      simp [afterEncodeBlock, encodeBlock_length _ _ _ (encodeCount_le s)]

theorem decodeBlockStep_next {s t : State} (h : decodeBlockStep s = .next t) :
    ∃ cs, s.pos.toNat + 4 ≤ s.ilen.toNat ∧ s.ibuf.readMany s.pos.toNat 4 = some cs ∧
      ((decodeBlock (byteLane cs 0) (byteLane cs 1) (byteLane cs 2) (byteLane cs 3)
          (finalGroup s) = none ∧ t = raiseInvalidInput s) ∨
       ∃ ys, decodeBlock (byteLane cs 0) (byteLane cs 1) (byteLane cs 2) (byteLane cs 3)
          (finalGroup s) = some ys ∧ s.olen.toNat + ys.length ≤ s.cfg.ocap ∧
          t = afterDecodeBlock s ys) := by
  simp only [decodeBlockStep] at h
  split at h
  · cases h
  · rename_i cs hr
    obtain ⟨hin, hread⟩ := readMessage_ok hr
    refine ⟨cs, hin, hread, ?_⟩
    split at h
    · rename_i hbad
      cases h
      exact .inl ⟨hbad, rfl⟩
    · rename_i ys hok
      split at h
      · cases h
      · rename_i u hu
        cases h
        obtain ⟨hroom, rfl⟩ := appendOutput_ok hu
        exact .inr ⟨ys, hok, hroom, rfl⟩

theorem sequencerStep_next {s t : State} (h : sequencerStep s = .next t) : RunStep s t := by
  simp only [sequencerStep] at h
  split at h
  · rename_i hlt
    split at h
    · rename_i hm
      obtain ⟨bs, -, hread, hroom, rfl⟩ := encodeBlockStep_next h
      exact .encodeBlock bs hm hlt hread hroom
    · rename_i hm
      obtain ⟨cs, hin, hread, ⟨hbad, rfl⟩ | ⟨ys, hok, hroom, rfl⟩⟩ := decodeBlockStep_next h
      · exact .invalidInput cs hm hin hread hbad
      · exact .decodeBlock cs ys hm hin hread hok hroom
  · split at h
    · rename_i hd
      split at h <;> (cases h; exact .finish hd)
    · cases h

/-- What a command does when it is taken: a pure command delivers its result, a message command is
accepted. -/
inductive CommandEffect (i : Instr) (s : State) : State → Prop where
  | pure (r : Result) (kind : ∀ len, i ≠ .encode len ∧ i ≠ .decode len) :
      CommandEffect i s (deliver r s)
  | encode (len : Len) (cmd : i = .encode len) : CommandEffect i s (acceptMessage .enc len s)
  | decode (len : Len) (cmd : i = .decode len) : CommandEffect i s (acceptDecode len s)

/-- The state a taken command leaves: a pure command delivers its result, a message command is
accepted. -/
def effectOf (i : Instr) (s : State) : State :=
  match i with
  | .charfor v8 => deliver (charforResult v8) s
  | .valuefor c => deliver (valueforResult c) s
  | .padchar => deliver (.char PAD) s
  | .gather n b0 b1 b2 => deliver (.fields (gather n.toNat b0 b1 b2)) s
  | .scatter m l0 l1 l2 l3 => deliver (.bytes (scatter m.toNat (laneSymbol l0) (laneSymbol l1)
      (laneSymbol l2) (laneSymbol l3))) s
  | .encblk n b0 b1 b2 => deliver (.chars (encodeBlock n.toNat b0 b1 b2)) s
  | .decblk final c0 c1 c2 c3 => deliver (decblkResult final c0 c1 c2 c3) s
  | .encode len => acceptMessage .enc len s
  | .decode len => acceptDecode len s

/-- Every command is its effect, admitted. -/
theorem exec_eq_admit (i : Instr) (s : State) : exec i s = takeCommand i s (.next (effectOf i s)) := by
  cases i <;> rfl

theorem effectOf_kind (i : Instr) (s : State) : CommandEffect i s (effectOf i s) := by
  cases i with
  | encode len => exact .encode len rfl
  | decode len => exact .decode len rfl
  | charfor v8 => exact .pure _ (by simp)
  | valuefor c => exact .pure _ (by simp)
  | padchar => exact .pure _ (by simp)
  | gather n b0 b1 b2 => exact .pure _ (by simp)
  | scatter m l0 l1 l2 l3 => exact .pure _ (by simp)
  | encblk n b0 b1 b2 => exact .pure _ (by simp)
  | decblk final c0 c1 c2 c3 => exact .pure _ (by simp)

theorem exec_next {i : Instr} {s t : State} (h : exec i s = .next t) :
    i.wf = true ∧ messageLength i ≤ s.cfg.maxLen ∧ s.status ≠ .busy ∧ CommandEffect i s t := by
  rw [exec_eq_admit] at h
  obtain ⟨hw, hl, hb, ht⟩ := takeCommand_next h
  cases ht
  exact ⟨hw, hl, hb, effectOf_kind i s⟩

/-- A command that meets the conditions of R60 is taken. -/
theorem exec_of {i : Instr} {s : State} (hw : i.wf = true) (hl : messageLength i ≤ s.cfg.maxLen)
    (hb : s.status ≠ .busy) : exec i s = .next (effectOf i s) := by
  rw [exec_eq_admit, takeCommand_of _ hw hl hb]

/-- The state with the host's moves `rest`. -/
def State.withHost (s : State) (rest : List HostAction) : State := { s with host := rest }

/-- The steps of the machine. -/
inductive Moved (s : State) : State → Prop where
  /-- a run goes on while the host makes no move, is idle, or waits -/
  | run (rest : List HostAction) (t : State) (busy : s.status = .busy)
      (left : s.host = [] ∧ rest = [] ∨ s.host = .idle :: rest ∨
        ∃ more, s.host = .wait :: more ∧ rest = .wait :: more)
      (go : RunStep (s.withHost rest) t) : Moved s t
  /-- the block is idle and so is the host -/
  | still (rest : List HostAction) (free : s.status ≠ .busy)
      (left : s.host = [] ∧ rest = [] ∨ s.host = .idle :: rest) :
      Moved s (silent (s.withHost rest))
  /-- a command is presented and taken -/
  | command (cw : Word40) (i : Instr) (rest : List HostAction) (t : State)
      (next : s.host = .present cw :: rest) (dec : decode cw = .ok i)
      (wf : i.wf = true) (fits : messageLength i ≤ s.cfg.maxLen) (free : s.status ≠ .busy)
      (eff : CommandEffect i (s.withHost rest) t) : Moved s t
  /-- `HWR` -/
  | write (i : Nat) (b : Byte) (rest : List HostAction) (next : s.host = .writeCell i b :: rest)
      (free : s.status ≠ .busy) (inside : i < s.cfg.maxLen) :
      Moved s { s with host := rest, ibuf := s.ibuf.write i b, reply := none }
  /-- `HRD` -/
  | read (i : Nat) (b : Byte) (rest : List HostAction) (next : s.host = .readCell i :: rest)
      (done : s.status = .doneOk) (inside : i < s.olen.toNat) (value : s.obuf.read i = some b) :
      Moved s { s with host := rest, reply := some (.cell b) }
  /-- `HST`, or `WAIT` that has ended -/
  | registers (rest : List HostAction)
      (next : s.host = .readRegisters :: rest ∨ s.host = .wait :: rest ∧ s.status ≠ .busy) :
      Moved s (deliverRegisters (s.withHost rest))
  /-- reset -/
  | reset (rest : List HostAction) (next : s.host = .reset :: rest) :
      Moved s (resetBlock (s.withHost rest))

theorem withHost_self {s : State} {rest : List HostAction} (h : s.host = rest) :
    s.withHost rest = s := by
  subst h
  rfl

theorem step_next {s t : State} (h : step s = .next t) : Moved s t := by
  simp only [step] at h
  split at h
  · rename_i hh
    simp only [unattendedStep] at h
    have hs : s.withHost [] = s := withHost_self hh
    split at h
    · rename_i hb
      exact .run [] t hb (.inl ⟨hh, rfl⟩) (by rw [hs]; exact sequencerStep_next h)
    · rename_i hb
      cases h
      exact (by simpa only [hs] using Moved.still (s := s) [] hb (.inl ⟨hh, rfl⟩))
  · rename_i a rest hh
    cases a with
    | present cw =>
      simp only [hostMove, presentCommand] at h
      split at h
      · cases h
      · rename_i i hd
        obtain ⟨hw, hl, hb, he⟩ := exec_next h
        exact .command cw i rest t hh hd hw hl hb he
    | writeCell i b =>
      simp only [hostMove, hostWrite] at h
      split at h
      · cases h
      · rename_i hb
        split at h
        · rename_i hi
          cases h
          exact .write i b rest hh hb hi
        · cases h
    | readCell i =>
      simp only [hostMove, hostRead] at h
      split at h
      · cases h
      · split at h
        · rename_i b hv
          cases h
          simp only [State.obufValue] at hv
          split at hv
          · rename_i hc
            exact .read i b rest hh hc.1 hc.2 hv
          · cases hv
        · cases h
    | readRegisters =>
      cases h
      exact .registers rest (.inl hh)
    | wait =>
      simp only [hostMove, hostWait] at h
      split at h
      · rename_i hb
        exact .run _ t hb (.inr (.inr ⟨rest, hh, rfl⟩))
          (by rw [withHost_self hh]; exact sequencerStep_next h)
      · rename_i hb
        cases h
        exact .registers rest (.inr ⟨hh, hb⟩)
    | idle =>
      simp only [hostMove, unattendedStep] at h
      split at h
      · rename_i hb
        exact .run rest t hb (.inr (.inl hh)) (sequencerStep_next h)
      · rename_i hb
        cases h
        exact .still rest hb (.inr hh)
    | reset =>
      cases h
      exact .reset rest hh

end Sys2Proof.Machine
end

