-- ==== Sys2Proof/Tests/Slice0.lean ====
section
/-! SUPPORT. The model's own tests: expected values are those of the spec's tables and vectors
(spec/30_encoding.md sections 6 and 8, spec/95_test_vectors.md), never the model's answers. Then one
witness or more for the hypotheses of every statement of Certificates/Slice0/Obligations.lean. -/

namespace Sys2Proof.Tests

open Sys2Proof Sys2Proof.Machine

/-! ## WellFormed refuses (R53, R55 (c) to (e)) -/

theorem test_wf_gather_empty : (Instr.gather 0 0x61 0 0).wf = false := by decide
theorem test_wf_encblk_empty : (Instr.encblk 0 0x61 0 0).wf = false := by decide
theorem test_wf_scatter_low_counts :
    (Instr.scatter 0 0 0 0 0).wf = false ∧ (Instr.scatter 1 0 0 0 0).wf = false := by decide
theorem test_wf_scatter_high_counts :
    (Instr.scatter 5 0 0 0 0).wf = false ∧ (Instr.scatter 6 0 0 0 0).wf = false ∧
      (Instr.scatter 7 0 0 0 0).wf = false := by decide
theorem test_wf_scatter_top_bits :
    (Instr.scatter 2 0x40 0 0 0).wf = false ∧ (Instr.scatter 2 0 0x80 0 0).wf = false ∧
      (Instr.scatter 3 0 0 0xC0 0).wf = false ∧ (Instr.scatter 4 0 0 0 0x40).wf = false := by decide
theorem test_wf_absent_lane_is_free :
    (Instr.scatter 2 63 63 0xFF 0xFF).wf = true ∧ (Instr.gather 1 0 0xFF 0xFF).wf = true := by decide

/-! ## Words written out field by field from R50 and R53 -/

theorem test_decode_charfor :
    decode (0b0000#4 ++ 0b0000#4 ++ 0#24 ++ 0b01000000#8) = .ok (.charfor 64) := by decide
theorem test_decode_valuefor :
    decode (0b0001#4 ++ 0b0000#4 ++ 0#24 ++ 0b01011001#8) = .ok (.valuefor 0x59) := by decide
theorem test_decode_padchar : decode (0b0010#4 ++ 0#36) = .ok .padchar := by decide
theorem test_decode_gather :
    decode (0b0100#4 ++ 0b00#2 ++ 0b10#2 ++ 0x61#8 ++ 0x62#8 ++ 0xFF#8 ++ 0#8) =
      .ok (.gather 2 0x61 0x62 0xFF) := by decide
theorem test_decode_scatter :
    decode (0b0101#4 ++ 0b0#1 ++ 0b011#3 ++ 0b00011000#8 ++ 0b00010110#8 ++ 0b00001001#8 ++ 0xFF#8) =
      .ok (.scatter 3 24 22 9 0xFF) := by decide
theorem test_decode_encblk :
    decode (0b1000#4 ++ 0b00#2 ++ 0b11#2 ++ 0x61#8 ++ 0x62#8 ++ 0x63#8 ++ 0#8) =
      .ok (.encblk 3 0x61 0x62 0x63) := by decide
theorem test_decode_decblk :
    decode (0b1001#4 ++ 0b000#3 ++ 0b0#1 ++ 0x59#8 ++ 0x57#8 ++ 0x4A#8 ++ 0x6A#8) =
      .ok (.decblk false 0x59 0x57 0x4A 0x6A) := by decide
theorem test_decode_decblk_final :
    decode (0b1001#4 ++ 0b000#3 ++ 0b1#1 ++ 0x59#8 ++ 0x51#8 ++ 0x3D#8 ++ 0x3D#8) =
      .ok (.decblk true 0x59 0x51 0x3D 0x3D) := by decide
theorem test_decode_encode :
    decode (0b1100#4 ++ 0b0000#4 ++ 0x80000001#32) = .ok (.encode 0x80000001) := by decide
theorem test_decode_decode :
    decode (0b1101#4 ++ 0b0000#4 ++ 0x00000004#32) = .ok (.decode 4) := by decide

theorem test_encode_words :
    encode (.charfor 24) = 0x0000000018 ∧ encode (.valuefor 0x3D) = 0x100000003D ∧
      encode .padchar = 0x2000000000 ∧ encode (.gather 1 0x61 0 0) = 0x4161000000 ∧
      encode (.scatter 2 24 16 0 0) = 0x5218100000 ∧ encode (.encblk 1 0x61 0 0) = 0x8161000000 ∧
      encode (.decblk false 0x59 0x51 0x3D 0x3D) = 0x9059513D3D ∧
      encode (.encode 3) = 0xC000000003 ∧ encode (.decode 3) = 0xD000000003 := by decide

/-! ## Reserved words (R55) -/

theorem test_reserved_op :
    ([0x3, 0x6, 0x7, 0xA, 0xB, 0xE, 0xF] : List (BitVec 4)).all (fun op =>
      (decode (op ++ 0#36)).toOption.isNone) = true := by decide
theorem test_reserved_must_be_zero :
    decode 0x0000000118 = .error .mustBeZero ∧ decode 0x1800000041 = .error .mustBeZero ∧
      decode 0x2000000001 = .error .mustBeZero ∧ decode 0x4161000001 = .error .mustBeZero ∧
      decode 0x4561000000 = .error .mustBeZero ∧ decode 0x5A00000000 = .error .mustBeZero ∧
      decode 0x8961000000 = .error .mustBeZero ∧ decode 0x9259513D3D = .error .mustBeZero ∧
      decode 0xC100000003 = .error .mustBeZero ∧ decode 0xD800000004 = .error .mustBeZero := by decide
theorem test_reserved_operands :
    decode 0x4000000000 = .error .emptyGroup ∧ decode 0x8000000000 = .error .emptyGroup ∧
      decode 0x5100000000 = .error .symbolCount ∧ decode 0x5500000000 = .error .symbolCount ∧
      decode 0x5240000000 = .error .symbolTopBits ∧ decode 0x54000000C0 = .error .symbolTopBits := by
  decide

/-- No word selects two rows. -/
theorem test_rows_disjoint :
    rows.Pairwise (fun r q => r.pattern &&& (r.mask &&& q.mask) ≠ q.pattern &&& (r.mask &&& q.mask)) := by
  decide

theorem test_table_word : decodeTableWord 40 0x5218104055 = some (.scatter 2 24 16 0x40 0x55) ∧
    decodeTableWord 40 0x3000000000 = none := by decide

/-! ## One step each: the result words of section 8 of spec/30_encoding.md and of spec/95 -/

/-- The word of the result that a step from `s` delivers. -/
def resultWord (s : State) : Option Word40 :=
  match step s with
  | .next t =>
    match t.reply with
    | some (.result r) => some r.word
    | _ => none
  | _ => none

/-- The word is presented first after reset. -/
def firstWord (w : Nat) : Option Word40 := resultWord (State.reset.withFetchWord 40 w)

theorem test_charfor : firstWord 0x0000000018 = some 0x1000000059 := by decide
theorem test_charfor_fail : firstWord 0x0000000040 = some 0 := by decide
theorem test_valuefor : firstWord 0x1000000059 = some 0x1000000018 := by decide
theorem test_valuefor_fail : firstWord 0x100000003D = some 0 := by decide
theorem test_padchar : firstWord 0x2000000000 = some 0x100000003D := by decide
theorem test_gather_one : firstWord 0x4161000000 = some 0x1218100000 := by decide
theorem test_gather_three : firstWord 0x4361626300 = some 0x1418160923 := by decide
theorem test_scatter_four : firstWord 0x5418160923 = some 0x1361626300 := by decide
theorem test_scatter_two : firstWord 0x5218100000 = some 0x1161000000 := by decide
theorem test_encblk_one : firstWord 0x8161000000 = some 0x1059513D3D := by decide
theorem test_encblk_three : firstWord 0x8361626300 = some 0x1059574A6A := by decide
theorem test_decblk_final : firstWord 0x9159513D3D = some 0x1161000000 := by decide
theorem test_decblk_padding_not_final : firstWord 0x9059513D3D = some 0 := by decide
theorem test_decode_bad_length : firstWord 0xD000000003 = some 0 := by decide

/-! ## Small states -/

/-- The cells `0, 1, …` with the given values. -/
def cells (bs : List Byte) : Memory := bs.zipIdx.map (fun p => (p.2, p.1))

/-- A block with `MAXLEN = 8` in which no command has run. -/
def fresh (host : List HostAction) (message : List Byte) : State :=
  { State.reset with cfg := { maxLen := 8 }, host := host, ibuf := cells message }

/-- A run in progress on `message`, at `pos`, with `out` written. -/
def running (mode : Mode) (message : List Byte) (pos : Len) (out : List Byte) : State :=
  { fresh [.wait] message with
    status := .busy
    mode := mode
    ilen := BitVec.ofNat 32 message.length
    pos := pos
    olen := BitVec.ofNat 32 out.length
    obuf := cells out }

/-- A run that ended with success. -/
def done (mode : Mode) (message out : List Byte) (host : List HostAction) : State :=
  { running mode message (BitVec.ofNat 32 message.length) out with status := .doneOk, host := host }

/-- A run that ended with `InvalidInput` at `pos`. -/
def failed (message : List Byte) (pos : Len) (host : List HostAction) : State :=
  { running .dec message pos [] with status := .doneErr, host := host }

/-- `"abcd"`, of which one group of 3 has been coded as `"YWJj"`. -/
def midEncode : State := running .enc [0x61, 0x62, 0x63, 0x64] 3 [0x59, 0x57, 0x4A, 0x6A]

/-- `"YWJjYQ=="`, of which one group has been decoded. -/
def midDecode : State :=
  running .dec [0x59, 0x57, 0x4A, 0x6A, 0x59, 0x51, 0x3D, 0x3D] 4 [0x61, 0x62, 0x63]

/-- `"YWJjY==="`, before its bad last group. -/
def midDecodeBad : State :=
  running .dec [0x59, 0x57, 0x4A, 0x6A, 0x59, 0x3D, 0x3D, 0x3D] 4 [0x61, 0x62, 0x63]

/-- The output buffer after a step. -/
def outputAfter (r : StepResult) : Option Memory :=
  match r with
  | .next t => some t.obuf
  | _ => none

/-- R94: the last, short group of `"abcd"` is coded as `"ZA=="`. -/
theorem test_encode_short_block :
    outputAfter (step midEncode) =
      some (cells [0x59, 0x57, 0x4A, 0x6A, 0x5A, 0x41, 0x3D, 0x3D]) := by decide
theorem test_encode_accept :
    step (fresh [.present 0xC000000003, .wait] [0x61, 0x62, 0x63]) =
      .next (running .enc [0x61, 0x62, 0x63] 0 []) := by rfl
/-- R110: the last group `"YQ=="` appends the byte 0x61. -/
theorem test_decode_last_block :
    outputAfter (step midDecode) = some (cells [0x61, 0x62, 0x63, 0x61]) := by decide

theorem test_memory_write_between :
    Memory.write [(0, 1), (5, 2)] 3 7 = [(0, 1), (3, 7), (5, 2)] ∧
      Memory.write [(0, 1), (5, 2)] 5 9 = [(0, 1), (5, 9)] := by decide

/-! ## The small states meet the invariant -/

theorem witness_fresh_inv : (fresh [] []).Inv :=
  ⟨by decide, by decide, by decide, by decide, by decide, by decide, ⟨rfl, rfl⟩⟩
theorem witness_midEncode_inv : midEncode.Inv :=
  ⟨by decide, by decide, by decide, by decide, by decide, by decide, ⟨by decide, by decide⟩⟩
theorem witness_midDecode_inv : midDecode.Inv :=
  ⟨by decide, by decide, by decide, by decide, by decide, by decide,
    ⟨by decide, by decide, by decide, by decide, by decide⟩⟩
theorem witness_midDecodeBad_inv : midDecodeBad.Inv :=
  ⟨by decide, by decide, by decide, by decide, by decide, by decide,
    ⟨by decide, by decide, by decide, by decide, by decide⟩⟩
theorem witness_done_inv : (done .enc [0x61] [0x59, 0x51, 0x3D, 0x3D] []).Inv :=
  ⟨by decide, by decide, by decide, by decide, by decide, by decide, ⟨rfl, by decide⟩⟩
theorem witness_done_dec_inv : (done .dec [0x59, 0x51, 0x3D, 0x3D] [0x61] []).Inv :=
  ⟨by decide, by decide, by decide, by decide, by decide, by decide,
    ⟨rfl, by decide, by decide, by decide⟩⟩
theorem witness_failed_inv : (failed [0x59, 0x3D, 0x3D, 0x3D] 0 []).Inv :=
  ⟨by decide, by decide, by decide, by decide, by decide, by decide,
    ⟨rfl, by decide, by decide, by decide⟩⟩

/-- The invariant does not speak of the host. -/
theorem inv_withHost {s : State} (h : s.Inv) (host : List HostAction) : { s with host := host }.Inv :=
  ⟨h.legal, h.ibufWf, h.ibufInside, h.obufCells, h.posLe, h.ilenLe, h.phase⟩

/-! ## Witnesses: the hypotheses of every statement are met, clause by clause -/

theorem witness_DecodeOfEncodeIsTheCommand :
    (Instr.scatter 4 63 63 63 63).wf = true ∧ (Instr.scatter 2 63 63 0xFF 0xFF).wf = true ∧
      (Instr.gather 1 0xFF 0xFF 0xFF).wf = true ∧ (Instr.gather 3 0xFF 0xFF 0xFF).wf = true ∧
      (Instr.encode 0xFFFFFFFF).wf = true := by decide

theorem witness_EncodeOfDecodeIsTheWord :
    decode 0x4161FFFF00 = .ok (.gather 1 0x61 0xFF 0xFF) ∧
      decode 0x543F3F3F3F = .ok (.scatter 4 63 63 63 63) := by decide

theorem witness_WordsThatDecodeAreTheUnreserved :
    (∃ i, decode 0x523F3FFFFF = .ok i) ∧ ReservedWord 0x523F40FFFF ∧ ReservedWord 0x54000000C0 :=
  ⟨⟨.scatter 2 63 63 0xFF 0xFF, rfl⟩,
    .inr (.inr (.inr (.inr ⟨by decide, 1, by decide, by decide, by decide⟩))),
    .inr (.inr (.inr (.inr ⟨by decide, 3, by decide, by decide, by decide⟩)))⟩

/-- One word for each cause (a) to (e), presented in an idle block and while `BUSY`. -/
theorem witness_ReservedWordsAreRefused :
    ReservedWord 0x3000000000 ∧ ReservedWord 0xC100000000 ∧ ReservedWord 0x4000000000 ∧
      ReservedWord 0x5500000000 ∧ ReservedWord 0x5240000000 ∧
      (fresh [.present 0x3000000000] []).host = .present 0x3000000000 :: [] ∧
      { midEncode with host := [.present 0x3000000000] }.host = .present 0x3000000000 :: [] :=
  ⟨.inl (show UnassignedOp _ by unfold UnassignedOp; decide),
    .inr (.inl (show MustBeZeroSet _ by unfold MustBeZeroSet; decide)),
    .inr (.inr (.inl (show EmptyGroup _ by unfold EmptyGroup; decide))),
    .inr (.inr (.inr (.inl (show BadSymbolCount _ by unfold BadSymbolCount; decide)))),
    .inr (.inr (.inr (.inr ⟨by decide, 0, by decide, by decide, by decide⟩))), rfl, rfl⟩

/-- R55 (f) at `MAXLEN + 1`. -/
theorem witness_ReservedWordsAreRefused_length :
    (fresh [.present 0xC000000009] []).host = .present 0xC000000009 :: [] ∧
      ¬ ReservedWord 0xC000000009 ∧ LengthTooLarge (fresh [] []).cfg.maxLen 0xC000000009 := by
  refine ⟨rfl, ?_, by unfold LengthTooLarge; decide⟩
  rintro (h | h | h | h | h)
  · unfold UnassignedOp at h; revert h; decide
  · unfold MustBeZeroSet at h; revert h; decide
  · unfold EmptyGroup at h; revert h; decide
  · unfold BadSymbolCount at h; revert h; decide
  · exact absurd h.1 (by decide)

theorem witness_StepRunsThePresentedCommand :
    (fresh [.present 0x2000000000, .readRegisters] []).host = .present 0x2000000000 :: [.readRegisters] ∧
      decode 0x2000000000 = .ok .padchar := ⟨rfl, by decide⟩

theorem witness_AbsentLanesAreIgnored :
    (2#2).toNat ≤ 2 ∧ (1#2).toNat ≤ 2 ∧ 1#2 = 1 ∧ (3#3).toNat ≤ 3 ∧ (2#3).toNat ≤ 3 ∧ (2#3).toNat ≤ 2 := by
  decide

theorem witness_PureCommandsReadAndWriteNoState :
    (Pure (.charfor 0xFF) ∧ (Instr.charfor 0xFF).wf = true) ∧
      (Pure (.scatter 2 63 63 0xFF 0xFF) ∧ (Instr.scatter 2 63 63 0xFF 0xFF).wf = true) ∧
      (fresh [] []).status ≠ .busy ∧ (done .enc [0x61] [0x59, 0x51, 0x3D, 0x3D] []).status ≠ .busy ∧
      (failed [0x59] 0 []).status ≠ .busy :=
  ⟨⟨trivial, by decide⟩, ⟨trivial, by decide⟩, by decide, by decide, by decide⟩

theorem witness_CharforResult :
    (fresh [] []).status ≠ .busy ∧ 63 < (64#8).toNat ∧ (25#8).toNat ≤ 25 ∧
      (25 < (26#8).toNat ∧ (51#8).toNat ≤ 51) ∧ (51 < (52#8).toNat ∧ (61#8).toNat ≤ 61) ∧
      62#8 = 62 ∧ 63#8 = 63 := by decide

theorem witness_ValueforResult :
    (fresh [] []).status ≠ .busy ∧ 0x41 ≤ (0x5A#8).toNat ∧ 0x61 ≤ (0x7A#8).toNat ∧
      0x30 ≤ (0x39#8).toNat ∧ 0x2B#8 = 0x2B ∧ 0x2F#8 = 0x2F ∧
      (¬ (0x41 ≤ (0x40#8).toNat ∧ (0x40#8).toNat ≤ 0x5A) ∧
        ¬ (0x61 ≤ (0x40#8).toNat ∧ (0x40#8).toNat ≤ 0x7A) ∧
        ¬ (0x30 ≤ (0x40#8).toNat ∧ (0x40#8).toNat ≤ 0x39) ∧ 0x40#8 ≠ 0x2B ∧ 0x40#8 ≠ 0x2F) := by decide

theorem witness_PadcharResult : (failed [0x59] 0 []).status ≠ .busy := by decide

theorem witness_SymbolTableIsABijection : valueFor 0x2F = some 63 ∧ valueFor 0x41 = some 0 := by decide

theorem witness_GatherResult : 1#2 ≠ 0 ∧ 3#2 ≠ 0 ∧ (fresh [] []).status ≠ .busy := by decide

theorem witness_ScatterResult :
    (Instr.scatter 2 63 63 0xFF 0xFF).wf = true ∧ (Instr.scatter 4 63 63 63 63).wf = true ∧
      (fresh [] []).status ≠ .busy := by decide

theorem witness_ScatterUndoesGather : 1 ≤ 1 ∧ 1 ≤ 3 ∧ 3 ≤ 3 := by decide

theorem witness_EncblkResult : 1#2 ≠ 0 ∧ 3#2 ≠ 0 ∧ (fresh [] []).status ≠ .busy := by decide

theorem alphabetChar_ne_pad : ∀ v : Sym, alphabetChar v ≠ PAD := by decide
theorem alphabetChar_ne_bang : ∀ v : Sym, alphabetChar v ≠ 0x21 := by decide

/-- Groups that decode: `"YR=="` final (trailing bits unchecked), `"YWI="` final, `"YWJj"` not. -/
theorem witness_group_decodes :
    GroupDecodes 0x59 0x52 0x3D 0x3D true [0x61] ∧
      GroupDecodes 0x59 0x57 0x49 0x3D true [0x61, 0x62] ∧
      GroupDecodes 0x59 0x57 0x4A 0x6A false [0x61, 0x62, 0x63] :=
  ⟨⟨[24, 17], by decide, by decide, by decide, by decide, by decide⟩,
    ⟨[24, 22, 8], by decide, by decide, by decide, by decide, by decide⟩,
    ⟨[24, 22, 9, 35], by decide, by decide, by decide, by decide, by decide⟩⟩

/-- Three `=`: no group, not even a final one. -/
theorem witness_three_pads_fail : ¬ ∃ ys, GroupDecodes 0x59 0x3D 0x3D 0x3D true ys := by
  rintro ⟨ys, vs, h2, h4, he, -, -⟩
  match vs, h2 with
  | a :: b :: rest, _ =>
    simp only [List.map_cons, List.cons_append, List.cons.injEq] at he
    exact alphabetChar_ne_pad b he.2.1.symm

/-- Padding in a group that is not final. -/
theorem witness_early_padding_fails : ¬ ∃ ys, GroupDecodes 0x59 0x57 0x49 0x3D false ys := by
  rintro ⟨ys, vs, h2, h4, he, hf, -⟩
  match vs, h2 with
  | [a, b], _ => exact absurd (hf (by simp)) (by decide)
  | [a, b, c], _ => exact absurd (hf (by simp)) (by decide)
  | a :: b :: c :: d :: rest, _ =>
    simp only [List.map_cons, List.cons_append, List.cons.injEq] at he
    exact alphabetChar_ne_pad d he.2.2.2.1.symm

theorem witness_DecblkResult : (fresh [] []).status ≠ .busy ∧
    GroupDecodes 0x59 0x52 0x3D 0x3D true [0x61] ∧
    ¬ ∃ ys, GroupDecodes 0x59 0x3D 0x3D 0x3D true ys :=
  ⟨by decide, witness_group_decodes.1, witness_three_pads_fail⟩

/-- `len = MAXLEN`, from an idle block and from a finished one. -/
theorem witness_EncodeAcceptStep : (8#32).toNat ≤ (fresh [] []).cfg.maxLen ∧
    (fresh [] []).status ≠ .busy ∧ (failed [0x59] 0 []).status ≠ .busy := by decide

/-- Both arms: a multiple of 4 and not. -/
theorem witness_DecodeAcceptStep : (8#32).toNat ≤ (fresh [] []).cfg.maxLen ∧
    (7#32).toNat ≤ (fresh [] []).cfg.maxLen ∧ (fresh [] []).status ≠ .busy := by decide

theorem witness_EncodeBlockStep : midEncode.Inv ∧ midEncode.status = .busy ∧ midEncode.mode = .enc ∧
    midEncode.pos.toNat < midEncode.ilen.toNat ∧
    1 = min 3 (midEncode.ilen.toNat - midEncode.pos.toNat) ∧
    midEncode.ibuf.readMany midEncode.pos.toNat 1 = some [0x64] :=
  ⟨witness_midEncode_inv, by decide, by decide, by decide, by decide, by decide⟩

theorem witness_FinishSteps : (running .enc [] 0 []).status = .busy ∧
    (running .enc [] 0 []).pos = (running .enc [] 0 []).ilen ∧
    (running .dec [0x59, 0x51, 0x3D, 0x3D] 4 [0x61]).status = .busy ∧
    (running .dec [0x59, 0x51, 0x3D, 0x3D] 4 [0x61]).pos =
      (running .dec [0x59, 0x51, 0x3D, 0x3D] 4 [0x61]).ilen := by decide

/-- The group decodes. -/
theorem witness_DecodeBlockStep : midDecode.Inv ∧ midDecode.status = .busy ∧
    midDecode.mode = .dec ∧ midDecode.pos.toNat < midDecode.ilen.toNat ∧
    midDecode.ibuf.readMany midDecode.pos.toNat 4 = some [0x59, 0x51, 0x3D, 0x3D] ∧
    GroupDecodes 0x59 0x51 0x3D 0x3D (midDecode.pos.toNat + 4 = midDecode.ilen.toNat) [0x61] :=
  ⟨witness_midDecode_inv, by decide, by decide, by decide, by decide,
    ⟨[24, 16], by decide, by decide, by decide, by decide, by decide⟩⟩

/-- The group does not decode. -/
theorem witness_DecodeBlockStep_bad : midDecodeBad.Inv ∧ midDecodeBad.status = .busy ∧
    midDecodeBad.mode = .dec ∧ midDecodeBad.pos.toNat < midDecodeBad.ilen.toNat ∧
    midDecodeBad.ibuf.readMany midDecodeBad.pos.toNat 4 = some [0x59, 0x3D, 0x3D, 0x3D] ∧
    ¬ ∃ ys, GroupDecodes 0x59 0x3D 0x3D 0x3D
      (midDecodeBad.pos.toNat + 4 = midDecodeBad.ilen.toNat) ys :=
  ⟨witness_midDecodeBad_inv, by decide, by decide, by decide, by decide, witness_three_pads_fail⟩

theorem witness_UnattendedBlock :
    midEncode.status = .busy ∧ midEncode.host = .wait :: [] ∧
    { midEncode with host := [] }.host = [] ∧ { midEncode with host := [.idle] }.host = .idle :: [] ∧
    (fresh [] []).status ≠ .busy ∧ (fresh [] []).host = [] ∧ (fresh [.idle] []).host = .idle :: [] ∧
    (fresh [.wait] []).host = .wait :: [] := by decide

/-- A run whose second group was never written, in both directions. -/
theorem witness_UnwrittenCellIsNeverRead :
    { midEncode with ibuf := cells [0x61, 0x62, 0x63] }.Inv ∧
    { midEncode with ibuf := cells [0x61, 0x62, 0x63] }.ibuf.readMany 3 1 = none ∧
    { midDecode with ibuf := cells [0x59, 0x57, 0x4A, 0x6A, 0x59, 0x51, 0x3D] }.Inv ∧
    { midDecode with ibuf := cells [0x59, 0x57, 0x4A, 0x6A, 0x59, 0x51, 0x3D] }.ibuf.readMany 4 4 =
      none :=
  ⟨⟨witness_midEncode_inv.legal, by decide, by decide, witness_midEncode_inv.obufCells,
      witness_midEncode_inv.posLe, witness_midEncode_inv.ilenLe, witness_midEncode_inv.phase⟩,
    by decide,
    ⟨witness_midDecode_inv.legal, by decide, by decide, witness_midDecode_inv.obufCells,
      witness_midDecode_inv.posLe, witness_midDecode_inv.ilenLe, witness_midDecode_inv.phase⟩,
    by decide⟩

/-- The last cell of `IBUF`, and the first index that is no cell. -/
theorem witness_HostWriteStoresOneCell :
    (fresh [.writeCell 7 1] []).host = .writeCell 7 1 :: [] ∧ 7 < (fresh [.writeCell 7 1] []).cfg.maxLen ∧
    (fresh [.writeCell 8 1] []).host = .writeCell 8 1 :: [] ∧ (fresh [.writeCell 8 1] []).cfg.maxLen ≤ 8 ∧
    (fresh [] []).status ≠ .busy := by decide

/-- The last cell of the result, the first cell after it, and any cell at `DONE_ERR`. -/
theorem witness_HostReadDeliversACellOfTheResult :
    (done .enc [0x61] [0x59, 0x51, 0x3D, 0x3D] [.readCell 3]).Inv ∧
    (done .enc [0x61] [0x59, 0x51, 0x3D, 0x3D] [.readCell 3]).status = .doneOk ∧
    3 < (done .enc [0x61] [0x59, 0x51, 0x3D, 0x3D] [.readCell 3]).olen.toNat ∧
    ¬ 4 < (done .enc [0x61] [0x59, 0x51, 0x3D, 0x3D] [.readCell 4]).olen.toNat ∧
    (failed [0x59, 0x3D, 0x3D, 0x3D] 0 [.readCell 0]).Inv ∧
    (failed [0x59, 0x3D, 0x3D, 0x3D] 0 [.readCell 0]).status ≠ .busy ∧
    (failed [0x59, 0x3D, 0x3D, 0x3D] 0 [.readCell 0]).status ≠ .doneOk :=
  ⟨inv_withHost witness_done_inv _, by decide, by decide, by decide,
    inv_withHost witness_failed_inv _, by decide, by decide⟩

theorem witness_BusyBlockRefusesTheHost : midEncode.status = .busy ∧
    Instr.padchar.wf = true ∧ messageLength .padchar ≤ midEncode.cfg.maxLen ∧
    (Instr.encode 8).wf = true ∧ messageLength (.encode 8) ≤ midEncode.cfg.maxLen ∧
    { midEncode with host := [.writeCell 0 1] }.host = .writeCell 0 1 :: [] ∧
    { midEncode with host := [.readCell 0] }.host = .readCell 0 :: [] := by decide

theorem witness_HstDeliversTheRegisters :
    { midDecode with host := [.readRegisters] }.host = .readRegisters :: [] ∧
    { midDecode with host := [.readRegisters] }.status = .busy := by decide

theorem witness_ResetFromAnyState : { midDecode with host := [.reset] }.host = .reset :: [] := by decide

/-- The invariant holds at a step that takes each kind of sequencer step, and after it there is a next
state. -/
theorem witness_StepKeepsTheInvariant : midEncode.Inv ∧ midDecode.Inv ∧ midDecodeBad.Inv ∧
    (∃ t, step midEncode = .next t) ∧ (∃ t, step midDecode = .next t) ∧
    (∃ t, step midDecodeBad = .next t) :=
  ⟨witness_midEncode_inv, witness_midDecode_inv, witness_midDecodeBad_inv, ⟨_, rfl⟩, ⟨_, rfl⟩, ⟨_, rfl⟩⟩

theorem witness_NoStepLeavesTheBuffers : midEncode.Inv ∧ midDecode.Inv :=
  ⟨witness_midEncode_inv, witness_midDecode_inv⟩

theorem witness_RunsMakeProgress : midEncode.Inv ∧ midEncode.status = .busy ∧
    ∀ a, a < midEncode.ilen.toNat → ∃ b, midEncode.ibuf.read a = some b := by
  refine ⟨witness_midEncode_inv, by decide, ?_⟩
  have h : ∀ a, a < 4 → (midEncode.ibuf.read a).isSome = true := by decide
  exact fun a ha => Option.isSome_iff_exists.1 (h a ha)

/-- Each of the four transitions is taken by some state. -/
theorem witness_StatusTransitions :
    (∃ t, step (fresh [.present 0xC000000003] []) = .next t ∧ t.status = .busy) ∧
    (∃ t, step (fresh [.present 0xD000000003] []) = .next t ∧ t.status = .doneErr) ∧
    (∃ t, step (running .enc [] 0 []) = .next t ∧ t.status = .doneOk) ∧
    (∃ t, step midDecodeBad = .next t ∧ t.status = .doneErr) ∧
    (∃ t, step { midDecode with host := [.reset] } = .next t ∧ t.status = .idle) :=
  ⟨⟨_, rfl, rfl⟩, ⟨_, rfl, rfl⟩, ⟨_, rfl, rfl⟩, ⟨_, rfl, rfl⟩, ⟨_, rfl, rfl⟩⟩

theorem witness_OnlyDecodeRaisesInvalidInput :
    (∃ t, step (fresh [.present 0xD000000003] []) = .next t ∧ t.status = .doneErr) ∧
    (fresh [.present 0xD000000003] []).status ≠ .doneErr ∧
    (∃ t, step midDecodeBad = .next t ∧ t.status = .doneErr) ∧ midDecodeBad.status ≠ .doneErr :=
  ⟨⟨_, rfl, rfl⟩, by decide, ⟨_, rfl, rfl⟩, by decide⟩

theorem witness_BlockNeverWritesTheInputBuffer :
    (∃ t, step (fresh [.writeCell 0 1] []) = .next t ∧ t.ibuf ≠ (fresh [.writeCell 0 1] []).ibuf) ∧
    (∃ t, step (fresh [.reset] [1]) = .next t ∧ t.ibuf ≠ (fresh [.reset] [1]).ibuf) :=
  ⟨⟨_, rfl, by decide⟩, ⟨_, rfl, by decide⟩⟩

/-- A pure command at `DONE_OK`: a next state, and a move that is no message command and no reset. -/
theorem witness_ResultStaysUntilTheNextMessage :
    (∃ t, step (done .enc [0x61] [0x59, 0x51, 0x3D, 0x3D] [.present 0x2000000000]) = .next t) ∧
    (done .enc [0x61] [0x59, 0x51, 0x3D, 0x3D] [.present 0x2000000000]).status ≠ .busy ∧
    ¬ ∃ a rest, (done .enc [0x61] [0x59, 0x51, 0x3D, 0x3D] [.present 0x2000000000]).host = a :: rest ∧
      (PresentsMessage a ∨ a = .reset) := by
  refine ⟨⟨_, rfl⟩, by decide, ?_⟩
  rintro ⟨a, rest, h, hm⟩
  obtain ⟨rfl, rfl⟩ : HostAction.present 0x2000000000 = a ∧ [] = rest := List.cons.inj h
  rcases hm with ⟨cw, i, hcw, hi, hp⟩ | h
  · cases hcw
    rw [show decode 0x2000000000 = .ok .padchar from rfl] at hi
    cases hi
    exact hp trivial
  · cases h

theorem witness_ParameterIsConstant : ∃ t, step (fresh [.reset] []) = .next t := ⟨_, rfl⟩

theorem witness_NoCrossCallState :
    (fresh [] [0x61]).cfg = (done .enc [0x61] [0x59, 0x51, 0x3D, 0x3D] []).cfg ∧
    (fresh [] [0x61]).ibuf = (done .enc [0x61] [0x59, 0x51, 0x3D, 0x3D] []).ibuf ∧
    (fresh [] [0x61]).host = (done .enc [0x61] [0x59, 0x51, 0x3D, 0x3D] []).host ∧
    (fresh [] [0x61]).status ≠ .busy ∧
    (done .enc [0x61] [0x59, 0x51, 0x3D, 0x3D] []).status ≠ .busy := by decide

/-- The memories agree below `ILEN` and differ at it; one run goes on and one faults. -/
theorem witness_CellsAboveTheMessageAreNotRead :
    (∀ a, a < midEncode.ilen.toNat →
      Memory.read (cells [0x61, 0x62, 0x63, 0x64, 0x65]) a = midEncode.ibuf.read a) ∧
    (∃ t, sequencerStep midEncode = .next t) ∧
    sequencerStep { midEncode with ibuf := [] } = .fault .unwrittenCell := by
  refine ⟨?_, ⟨_, rfl⟩, rfl⟩
  have h : ∀ a, a < 4 → Memory.read (cells [0x61, 0x62, 0x63, 0x64, 0x65]) a = midEncode.ibuf.read a := by
    decide
  exact h

theorem inv_message (message : List Byte) (hwf : (cells message).wf)
    (hin : ∀ c ∈ cells message, c.1 < 8) (host : List HostAction) : (fresh host message).Inv :=
  ⟨show Config.Legal { maxLen := 8 } by decide, hwf, hin, rfl, Nat.le_refl 0, Nat.zero_le _, ⟨rfl, rfl⟩⟩

theorem witness_EncodeRunEndsInTheClosedForm :
    (fresh [.present (encode (.encode 4)), .wait] [0x61, 0x62, 0x63, 0x64]).Inv ∧
    (fresh [.present (encode (.encode 4)), .wait] [0x61, 0x62, 0x63, 0x64]).status ≠ .busy ∧
    (4#32).toNat ≤ (fresh [] []).cfg.maxLen ∧
    (fresh [.present (encode (.encode 4)), .wait] [0x61, 0x62, 0x63, 0x64]).ibuf.readMany 0 4 =
      some [0x61, 0x62, 0x63, 0x64] ∧
    (fresh [.present (encode (.encode 4)), .wait] [0x61, 0x62, 0x63, 0x64]).host =
      .present (encode (.encode 4)) :: .wait :: [] :=
  ⟨inv_message _ (by decide) (by decide) _, by decide, by decide, by decide, rfl⟩

theorem witness_DecodeRunEndsInTheClosedForm :
    (fresh [.present (encode (.decode 4)), .wait] [0x59, 0x51, 0x3D, 0x3D]).Inv ∧
    (fresh [] [0x59, 0x51, 0x3D, 0x3D]).status ≠ .busy ∧ (4#32).toNat ≤ (fresh [] []).cfg.maxLen ∧
    (fresh [] [0x59, 0x51, 0x3D, 0x3D]).ibuf.readMany 0 4 = some [0x59, 0x51, 0x3D, 0x3D] ∧
    decodeByGroups [0x59, 0x51, 0x3D, 0x3D] = some [0x61] ∧
    (fresh [.present (encode (.decode 4)), .wait] [0x59, 0x51, 0x3D, 0x3D]).host =
      .present (encode (.decode 4)) :: .wait :: [] :=
  ⟨inv_message _ (by decide) (by decide) _, by decide, by decide, by decide, by decide, rfl⟩

/-- A bad length, and a bad second group. -/
theorem witness_DecodeRunEndsInInvalidInput :
    (fresh [.present (encode (.decode 3)), .wait] [0x59, 0x51, 0x3D]).Inv ∧
    decodeByGroups [0x59, 0x51, 0x3D] = none ∧
    (fresh [] [0x59, 0x51, 0x3D]).ibuf.readMany 0 3 = some [0x59, 0x51, 0x3D] ∧
    (fresh [.present (encode (.decode 8)), .wait] [0x59, 0x57, 0x4A, 0x6A, 0x59, 0x3D, 0x3D, 0x3D]).Inv ∧
    (8#32).toNat ≤ (fresh [] []).cfg.maxLen ∧
    decodeByGroups [0x59, 0x57, 0x4A, 0x6A, 0x59, 0x3D, 0x3D, 0x3D] = none ∧
    (fresh [] [0x59, 0x57, 0x4A, 0x6A, 0x59, 0x3D, 0x3D, 0x3D]).ibuf.readMany 0 8 =
      some [0x59, 0x57, 0x4A, 0x6A, 0x59, 0x3D, 0x3D, 0x3D] ∧
    (fresh [] []).status ≠ .busy :=
  ⟨inv_message _ (by decide) (by decide) _, by decide, by decide,
    inv_message _ (by decide) (by decide) _, by decide, by decide, by decide, by decide⟩

theorem witness_EmptyMessagesSucceed :
    (fresh [.present (encode (.encode 0)), .wait] []).status ≠ .busy ∧
    (fresh [.present (encode (.encode 0)), .wait] []).host =
      .present (encode (.encode 0)) :: .wait :: [] ∧
    (fresh [.present (encode (.decode 0)), .wait] []).host =
      .present (encode (.decode 0)) :: .wait :: [] := by decide

/-- All three remainders of the length. -/
theorem witness_EncodedTextIsClosedAndPadded :
    (3 < (encodeMessage [0x61]).length ∧ (encodeMessage [0x61])[2]? = some 0x3D) ∧
    (3 < (encodeMessage [0x61, 0x62]).length ∧ (encodeMessage [0x61, 0x62])[3]? = some 0x3D) ∧
    (3 < (encodeMessage [0x61, 0x62, 0x63]).length ∧
      (encodeMessage [0x61, 0x62, 0x63])[3]? = some 0x6A) := by decide

theorem witness_DecodedLength :
    decodeMessage [0x59, 0x51, 0x3D, 0x3D] = some [0x61] ∧ decodeMessage [] = some [] ∧
    trailingPads [0x59, 0x51, 0x3D, 0x3D] = 2 := by decide

theorem witness_RoundTripThroughTheBuffers :
    (fresh [] [0x61, 0x62, 0x63, 0x64]).Inv ∧ (fresh [] [0x61, 0x62, 0x63, 0x64]).status ≠ .busy ∧
    (4#32).toNat ≤ (fresh [] []).cfg.maxLen ∧
    4 * ceilThird (4#32).toNat ≤ (fresh [] []).cfg.maxLen ∧
    (fresh [] [0x61, 0x62, 0x63, 0x64]).ibuf.readMany 0 4 = some [0x61, 0x62, 0x63, 0x64] :=
  ⟨inv_message _ (by decide) (by decide) _, by decide, by decide, by decide, by decide⟩

/-- The counts of operands at both ends of each range. -/
theorem witness_CommandLinesPresentTheirCommand :
    (1 ≤ ([0x61] : List Byte).length ∧ ([0x61, 0x62, 0x63] : List Byte).length ≤ 3) ∧
    (([] : List Byte).length = 0 ∧ 3 < ([1, 2, 3, 4] : List Byte).length) ∧
    (2 ≤ ([1, 2] : List Sym).length ∧ ([1, 2, 3, 4] : List Sym).length ≤ 4) ∧
    (([1] : List Sym).length < 2 ∧ 4 < ([1, 2, 3, 4, 5] : List Sym).length) ∧
    (Line.padchar, Instr.padchar) ∈ ([(.padchar, .padchar)] : List (Line × Instr)) := by decide

/-- A message of `MAXLEN` bytes. -/
theorem witness_HloadLoadsTheMessage : (fresh [] []).status ≠ .busy ∧
    ([1, 2, 3, 4, 5, 6, 7, 8] : List Byte).length ≤ (fresh [] []).cfg.maxLen := by decide

end Sys2Proof.Tests
end

section
/-! The parameter through a step: one frame fact per kind of step of `RunStep`, `CommandEffect` and
`Moved`, which list what a step can do. -/

namespace Sys2Proof.Machine

variable {s t : State}

@[simp] theorem afterEncodeBlock_cfg (bs : List Byte) : (afterEncodeBlock s bs).cfg = s.cfg := rfl

@[simp] theorem afterDecodeBlock_cfg (ys : List Byte) : (afterDecodeBlock s ys).cfg = s.cfg := rfl

@[simp] theorem State.withHost_cfg (rest : List HostAction) : (s.withHost rest).cfg = s.cfg := rfl

@[simp] theorem acceptDecode_cfg (len : Len) : (acceptDecode len s).cfg = s.cfg := by
  unfold acceptDecode
  split
  · exact acceptMessage_cfg s .dec len
  · simp

theorem RunStep.cfg_eq (h : RunStep s t) : t.cfg = s.cfg := by
  cases h with
  | encodeBlock bs => exact afterEncodeBlock_cfg bs
  | decodeBlock cs ys => exact afterDecodeBlock_cfg ys
  | invalidInput => exact raiseInvalidInput_cfg s
  | finish => exact finishRun_cfg s

theorem CommandEffect.cfg_eq {i : Instr} (h : CommandEffect i s t) : t.cfg = s.cfg := by
  cases h with
  | pure r => exact deliver_cfg s r
  | encode len => exact acceptMessage_cfg s .enc len
  | decode len => exact acceptDecode_cfg len

theorem Moved.cfg_eq (h : Moved s t) : t.cfg = s.cfg := by
  cases h with
  | run rest t _ _ go => simpa using go.cfg_eq
  | still rest => simp
  | command cw i rest t _ _ _ _ _ eff => simpa using eff.cfg_eq
  | write => rfl
  | read => rfl
  | registers rest => simp
  | reset rest => simp

/-- Settles O43: whichever kind of step is taken, it keeps the parameter. -/
theorem parameterIsConstant : Obligations.ParameterIsConstant := by
  unfold Obligations.ParameterIsConstant
  intro s t h
  exact (step_next h).cfg_eq

end Sys2Proof.Machine
end

section
/-! The length registers through a block step: `POS` and `OLEN` move on without wrapping around. -/

namespace Sys2Proof.Machine

variable {s : State}

theorem toNat_add_ofNat {x : Len} {k : Nat} (h : x.toNat + k < 2 ^ 32) :
    (x + BitVec.ofNat 32 k).toNat = x.toNat + k := by
  have hk : (BitVec.ofNat 32 k).toNat = k := by
    rw [BitVec.toNat_ofNat, Nat.mod_eq_of_lt (by omega)]
  rw [BitVec.toNat_add_of_lt (by rwa [hk]), hk]

/-- An encode block step reads a full group, or the one or two cells that are left (R94). -/
theorem encodeCount_cases (more : s.pos.toNat < s.ilen.toNat) :
    (encodeCount s = 3 ∧ s.pos.toNat + 3 ≤ s.ilen.toNat) ∨
      (0 < encodeCount s ∧ encodeCount s < 3 ∧ s.pos.toNat + encodeCount s = s.ilen.toNat) := by
  unfold encodeCount
  omega

theorem afterEncodeBlock_pos_toNat (bs : List Byte) :
    (afterEncodeBlock s bs).pos.toNat = s.pos.toNat + encodeCount s := by
  have hp := s.pos.isLt
  have hi := s.ilen.isLt
  exact toNat_add_ofNat (by unfold encodeCount; omega)

theorem afterEncodeBlock_olen_toNat (bs : List Byte) (legal : s.cfg.Legal)
    (room : s.olen.toNat + 4 ≤ s.cfg.ocap) :
    (afterEncodeBlock s bs).olen.toNat = s.olen.toNat + 4 :=
  toNat_add_ofNat (k := 4) (by have := legal.2; omega)

theorem afterDecodeBlock_pos_toNat (ys : List Byte) (more : s.pos.toNat + 4 ≤ s.ilen.toNat) :
    (afterDecodeBlock s ys).pos.toNat = s.pos.toNat + 4 := by
  have hi := s.ilen.isLt
  exact toNat_add_ofNat (k := 4) (by omega)

theorem afterDecodeBlock_olen_toNat (ys : List Byte) (legal : s.cfg.Legal)
    (room : s.olen.toNat + ys.length ≤ s.cfg.ocap) :
    (afterDecodeBlock s ys).olen.toNat = s.olen.toNat + ys.length :=
  toNat_add_ofNat (by have := legal.2; omega)

end Sys2Proof.Machine
end

section
/-! What `PhaseInv` says in each phase that is reached (spec/10_state.md R13, R14, R18). -/

namespace Sys2Proof.Machine

variable {s : State}

theorem phaseInv_idle_enc (hs : s.status = .idle) (hm : s.mode = .enc) :
    PhaseInv s ↔ s.ilen = 0 ∧ s.olen = 0 := by
  simp only [PhaseInv, hs, hm]

theorem phaseInv_busy_enc (hs : s.status = .busy) (hm : s.mode = .enc) :
    PhaseInv s ↔ s.olen.toNat = 4 * ceilThird s.pos.toNat ∧
      (s.pos.toNat % 3 = 0 ∨ s.pos = s.ilen) := by
  simp only [PhaseInv, hs, hm]

theorem phaseInv_busy_dec (hs : s.status = .busy) (hm : s.mode = .dec) :
    PhaseInv s ↔ s.ilen.toNat % 4 = 0 ∧ s.pos.toNat % 4 = 0 ∧
      s.olen.toNat ≤ 3 * (s.pos.toNat / 4) ∧ 3 * (s.pos.toNat / 4) ≤ s.olen.toNat + 2 ∧
      (s.pos.toNat < s.ilen.toNat → s.olen.toNat = 3 * (s.pos.toNat / 4)) := by
  simp only [PhaseInv, hs, hm]

theorem phaseInv_doneOk_enc (hs : s.status = .doneOk) (hm : s.mode = .enc) :
    PhaseInv s ↔ s.pos = s.ilen ∧ s.olen.toNat = 4 * ceilThird s.ilen.toNat := by
  simp only [PhaseInv, hs, hm]

theorem phaseInv_doneOk_dec (hs : s.status = .doneOk) (hm : s.mode = .dec) :
    PhaseInv s ↔ s.pos = s.ilen ∧ s.ilen.toNat % 4 = 0 ∧
      s.olen.toNat ≤ 3 * (s.ilen.toNat / 4) ∧ 3 * (s.ilen.toNat / 4) ≤ s.olen.toNat + 2 := by
  simp only [PhaseInv, hs, hm]

theorem phaseInv_doneErr_dec (hs : s.status = .doneErr) (hm : s.mode = .dec) :
    PhaseInv s ↔ s.olen = 0 ∧ s.pos.toNat % 4 = 0 ∧ (s.ilen.toNat % 4 ≠ 0 → s.pos = 0) ∧
      (s.ilen.toNat % 4 = 0 → s.pos.toNat < s.ilen.toNat) := by
  simp only [PhaseInv, hs, hm]

end Sys2Proof.Machine
end

section
/-! The invariant of every run through each operation, each kind of step, and each step (O35, O36). -/

namespace Sys2Proof.Machine

variable {s t : State}

theorem Config.largest_legal : Config.largest.Legal := by decide

/-- The invariant does not speak of the host's coming moves. -/
theorem withHost_inv (h : s.Inv) (rest : List HostAction) : (s.withHost rest).Inv := { h with }

theorem silent_inv (h : s.Inv) : (silent s).Inv := { h with }

theorem deliver_inv (h : s.Inv) (r : Result) : (deliver r s).Inv := { h with }

theorem deliverRegisters_inv (h : s.Inv) : (deliverRegisters s).Inv := { h with }

theorem resetBlock_inv (legal : s.cfg.Legal) : (resetBlock s).Inv where
  legal := legal
  ibufWf := List.Pairwise.nil
  ibufInside := by simp
  obufCells := rfl
  posLe := Nat.le_refl _
  ilenLe := Nat.zero_le _
  phase := (phaseInv_idle_enc rfl rfl).2 ⟨rfl, rfl⟩

/-- A message command with an admitted length, whose run may begin (R93, R109). -/
theorem acceptMessage_inv (h : s.Inv) {d : Mode} {len : Len} (fits : len.toNat ≤ s.cfg.maxLen)
    (aligned : d = .dec → len.toNat % 4 = 0) : (acceptMessage d len s).Inv :=
  { h with
    obufCells := rfl
    posLe := Nat.zero_le _
    ilenLe := fits
    phase := by
      cases d with
      | enc => exact (phaseInv_busy_enc rfl rfl).2 ⟨by simp [ceilThird], .inl rfl⟩
      | dec => exact (phaseInv_busy_dec rfl rfl).2 ⟨aligned rfl, rfl, by simp⟩ }

theorem acceptDecode_inv (h : s.Inv) {len : Len} (fits : len.toNat ≤ s.cfg.maxLen) :
    (acceptDecode len s).Inv := by
  unfold acceptDecode
  split
  · next aligned => exact acceptMessage_inv h fits fun _ => aligned
  · next bad =>
    exact { h with
      obufCells := rfl
      posLe := Nat.zero_le _
      ilenLe := fits
      phase := (phaseInv_doneErr_dec rfl rfl).2 ⟨rfl, rfl, fun _ => rfl, fun ok => absurd ok bad⟩ }

theorem CommandEffect.inv {i : Instr} (eff : CommandEffect i s t) (h : s.Inv)
    (fits : messageLength i ≤ s.cfg.maxLen) : t.Inv := by
  cases eff with
  | pure r => exact deliver_inv h r
  | encode len cmd => subst cmd; exact acceptMessage_inv h fits nofun
  | decode len cmd => subst cmd; exact acceptDecode_inv h fits

theorem ibufWrite_inv (h : s.Inv) {i : Nat} (inside : i < s.cfg.maxLen) (b : Byte) :
    { s with ibuf := s.ibuf.write i b }.Inv :=
  { h with
    ibufWf := write_wf i b h.ibufWf
    ibufInside := fun c hc => by
      rcases mem_write hc with rfl | hc
      · exact inside
      · exact h.ibufInside c hc }

/-- An `ENCODE` run that is not at the end of its message stands at the start of a group. -/
theorem encodeRun_at_group (h : s.Inv) (hs : s.status = .busy) (hm : s.mode = .enc)
    (more : s.pos.toNat < s.ilen.toNat) :
    s.olen.toNat = 4 * ceilThird s.pos.toNat ∧ s.pos.toNat % 3 = 0 := by
  obtain ⟨holen, halign⟩ := (phaseInv_busy_enc hs hm).1 h.phase
  exact ⟨holen, halign.resolve_right fun hend => by simp [hend] at more⟩

/-- A short group is read only at the end of the message, so `POS` stays a multiple of 3 or reaches
`ILEN`, and each block appends four characters (R94, R99). -/
theorem afterEncodeBlock_inv (h : s.Inv) (hs : s.status = .busy) (hm : s.mode = .enc)
    (more : s.pos.toNat < s.ilen.toNat) (room : s.olen.toNat + 4 ≤ s.cfg.ocap) (bs : List Byte) :
    (afterEncodeBlock s bs).Inv := by
  obtain ⟨holen, hgroup⟩ := encodeRun_at_group h hs hm more
  have hpos := afterEncodeBlock_pos_toNat (s := s) bs
  have holen' := afterEncodeBlock_olen_toNat bs h.legal room
  exact { h with
    obufCells := by
      rw [holen', ← encodeBlock_length (byteLane bs 0) (byteLane bs 1) (byteLane bs 2)
        (encodeCount_le s)]
      exact writeMany_cells _ h.obufCells
    posLe := by
      rw [hpos]
      show _ ≤ s.ilen.toNat
      rcases encodeCount_cases more with ⟨hfull, hin⟩ | ⟨-, -, hend⟩ <;> omega
    phase := by
      refine (phaseInv_busy_enc (s := afterEncodeBlock s bs) hs hm).2 ?_
      rw [hpos, holen', holen]
      unfold ceilThird
      rcases encodeCount_cases more with ⟨hfull, -⟩ | ⟨hne, hlt, hend⟩
      · exact ⟨by omega, .inl (by omega)⟩
      · exact ⟨by omega, .inr (BitVec.eq_of_toNat_eq (hpos.trans hend))⟩ }

/-- A group gives fewer than three bytes only when it is the last one, so the closed form of `OLEN`
holds as long as the message goes on (R102, R106, R110). -/
theorem afterDecodeBlock_inv (h : s.Inv) (hs : s.status = .busy) (hm : s.mode = .dec)
    (more : s.pos.toNat + 4 ≤ s.ilen.toNat) {c0 c1 c2 c3 : Byte} {ys : List Byte}
    (ok : decodeBlock c0 c1 c2 c3 (finalGroup s) = some ys)
    (room : s.olen.toNat + ys.length ≤ s.cfg.ocap) : (afterDecodeBlock s ys).Inv := by
  obtain ⟨hilen, hpos4, -, -, holen⟩ := (phaseInv_busy_dec hs hm).1 h.phase
  obtain ⟨hpads, hfinal, hlen⟩ := decodeBlock_some ok
  have hpos := afterDecodeBlock_pos_toNat ys more
  have holen' := afterDecodeBlock_olen_toNat ys h.legal room
  have hfull : s.pos.toNat + 4 < s.ilen.toNat → ys.length = 3 := fun hlt => by
    have hnopad : ¬ 0 < padCount c0 c1 c2 c3 := fun hp => by
      have hend : s.pos.toNat + 4 = s.ilen.toNat := by simpa [finalGroup] using hfinal hp
      omega
    omega
  exact { h with
    obufCells := by rw [holen']; exact writeMany_cells _ h.obufCells
    posLe := by rw [hpos]; exact more
    phase := by
      refine (phaseInv_busy_dec (s := afterDecodeBlock s ys) hs hm).2 ?_
      rw [hpos, holen', holen (by omega)]
      change s.ilen.toNat % 4 = 0 ∧ _ ∧ _ ∧ _ ∧ (_ < s.ilen.toNat → _)
      omega }

/-- Only a `DECODE` run raises, before its end, so `POS` keeps the index of the bad group (R119). -/
theorem raiseInvalidInput_inv (h : s.Inv) (hs : s.status = .busy) (hm : s.mode = .dec)
    (more : s.pos.toNat < s.ilen.toNat) : (raiseInvalidInput s).Inv := by
  obtain ⟨hilen, hpos, -⟩ := (phaseInv_busy_dec hs hm).1 h.phase
  exact { h with
    obufCells := rfl
    phase := (phaseInv_doneErr_dec (s := raiseInvalidInput s) rfl hm).2
      ⟨rfl, hpos, fun bad => absurd hilen bad, fun _ => more⟩ }

theorem finishRun_inv (h : s.Inv) (hs : s.status = .busy) (done : s.pos = s.ilen) :
    (finishRun s).Inv :=
  { h with
    phase := by
      cases hm : s.mode with
      | enc =>
        obtain ⟨holen, -⟩ := (phaseInv_busy_enc hs hm).1 h.phase
        exact (phaseInv_doneOk_enc (s := finishRun s) rfl hm).2 ⟨done, done ▸ holen⟩
      | dec =>
        obtain ⟨hilen, -, hle, hge, -⟩ := (phaseInv_busy_dec hs hm).1 h.phase
        exact (phaseInv_doneOk_dec (s := finishRun s) rfl hm).2
          ⟨done, hilen, done ▸ hle, done ▸ hge⟩ }

theorem RunStep.inv (step : RunStep s t) (h : s.Inv) (hs : s.status = .busy) : t.Inv := by
  cases step with
  | encodeBlock bs mode more _ room => exact afterEncodeBlock_inv h hs mode more room bs
  | decodeBlock cs ys mode more _ ok room => exact afterDecodeBlock_inv h hs mode more ok room
  | invalidInput cs mode more => exact raiseInvalidInput_inv h hs mode (by omega)
  | finish done => exact finishRun_inv h hs done

theorem Moved.inv (moved : Moved s t) (h : s.Inv) : t.Inv := by
  cases moved with
  | run rest t busy _ go => exact go.inv (withHost_inv h rest) busy
  | still rest => exact silent_inv (withHost_inv h rest)
  | command cw i rest t _ _ _ fits _ eff => exact eff.inv (withHost_inv h rest) fits
  | write i b rest _ _ inside => exact silent_inv (withHost_inv (ibufWrite_inv h inside b) rest)
  | read i b rest => exact { h with }
  | registers rest => exact deliverRegisters_inv (withHost_inv h rest)
  | reset rest => exact resetBlock_inv h.legal

/-- Settles O36: each kind of step keeps the invariant. -/
theorem stepKeepsTheInvariant : Obligations.StepKeepsTheInvariant := by
  unfold Obligations.StepKeepsTheInvariant
  intro s t h hstep
  exact (step_next hstep).inv h

/-- Settles O35: the state after reset is the reset of a block with a legal parameter. -/
theorem resetMeetsTheInvariant : Obligations.ResetMeetsTheInvariant := by
  unfold Obligations.ResetMeetsTheInvariant
  exact resetBlock_inv (s := State.reset) Config.largest_legal

end Sys2Proof.Machine
end

section
/-! The bounds of the buffers (spec/10_state.md R14, spec/20_memory.md R32, R33): where a block step
is enabled its group lies inside the message and its output inside `OBUF` (O37). -/

namespace Sys2Proof.Machine

variable {s : State} {f : Fault}

theorem room_of_encodeBlock (h : s.Inv) (hs : s.status = .busy) (hm : s.mode = .enc)
    (more : s.pos.toNat < s.ilen.toNat) : s.olen.toNat + 4 ≤ s.cfg.ocap := by
  obtain ⟨holen, hgroup⟩ := encodeRun_at_group h hs hm more
  have hilen := h.ilenLe
  rw [holen]
  unfold Config.ocap ceilThird
  omega

theorem group_of_decodeBlock (h : s.Inv) (hs : s.status = .busy) (hm : s.mode = .dec)
    (more : s.pos.toNat < s.ilen.toNat) : s.pos.toNat + 4 ≤ s.ilen.toNat := by
  obtain ⟨hilen, hpos, -⟩ := (phaseInv_busy_dec hs hm).1 h.phase
  omega

theorem room_of_decodeBlock (h : s.Inv) (hs : s.status = .busy) (hm : s.mode = .dec)
    (more : s.pos.toNat < s.ilen.toNat) : s.olen.toNat + 3 ≤ s.cfg.ocap := by
  obtain ⟨-, -, hle, -⟩ := (phaseInv_busy_dec hs hm).1 h.phase
  have hgroup := group_of_decodeBlock h hs hm more
  have hilen := h.ilenLe
  unfold Config.ocap ceilThird
  omega

theorem encodeBlockStep_fault (h : encodeBlockStep s = .fault f) :
    f = .unwrittenCell ∨ (f = .readPastMessage ∧ s.ilen.toNat < s.pos.toNat + encodeCount s) ∨
      (f = .writePastBuffer ∧ s.cfg.ocap < s.olen.toNat + 4) := by
  simp only [encodeBlockStep] at h
  split at h
  · next hr =>
    cases h
    rcases readMessage_error hr with ⟨hf, -⟩ | hpast
    · exact .inl hf
    · exact .inr (.inl hpast)
  · split at h
    · next ha =>
      cases h
      have hfull := appendOutput_error ha
      rw [encodeBlock_length _ _ _ (encodeCount_le s)] at hfull
      exact .inr (.inr hfull)
    · cases h

theorem decodeBlockStep_fault (h : decodeBlockStep s = .fault f) :
    f = .unwrittenCell ∨ (f = .readPastMessage ∧ s.ilen.toNat < s.pos.toNat + 4) ∨
      (f = .writePastBuffer ∧ s.cfg.ocap < s.olen.toNat + 3) := by
  simp only [decodeBlockStep] at h
  split at h
  · next hr =>
    cases h
    rcases readMessage_error hr with ⟨hf, -⟩ | hpast
    · exact .inl hf
    · exact .inr (.inl hpast)
  · split at h
    · cases h
    · next ys hok =>
      split at h
      · next ha =>
        cases h
        obtain ⟨hf, hfull⟩ := appendOutput_error ha
        obtain ⟨-, -, hlen⟩ := decodeBlock_some hok
        exact .inr (.inr ⟨hf, by omega⟩)
      · cases h

/-- Under the invariant a run stops at an unwritten cell of `IBUF` and nowhere else. -/
theorem sequencerStep_fault (h : s.Inv) (hs : s.status = .busy) (hf : sequencerStep s = .fault f) :
    f = .unwrittenCell := by
  simp only [sequencerStep] at hf
  split at hf
  · next more =>
    split at hf
    · next hm =>
      rcases encodeBlockStep_fault hf with hf | ⟨-, hpast⟩ | ⟨-, hfull⟩
      · exact hf
      · rcases encodeCount_cases more with ⟨_, _⟩ | ⟨_, _, _⟩ <;> omega
      · have := room_of_encodeBlock h hs hm more
        omega
    · next hm =>
      rcases decodeBlockStep_fault hf with hf | ⟨-, hpast⟩ | ⟨-, hfull⟩
      · exact hf
      · have := group_of_decodeBlock h hs hm more
        omega
      · have := room_of_decodeBlock h hs hm more
        omega
  · next hend =>
    split at hf
    · split at hf <;> cases hf
    · next hne =>
      exact absurd (BitVec.eq_of_toNat_eq (Nat.le_antisymm h.posLe (Nat.le_of_not_lt hend))) hne

theorem exec_ne_fault (i : Instr) (s : State) (f : Fault) : exec i s ≠ .fault f := by
  intro h
  rw [exec_eq_admit] at h
  exact nomatch takeCommand_fault h

theorem unattendedStep_fault (h : unattendedStep s = .fault f) :
    s.status = .busy ∧ sequencerStep s = .fault f := by
  unfold unattendedStep at h
  split at h
  · next hb => exact ⟨hb, h⟩
  · cases h

/-- A fault is a host write beyond `IBUF` or the fault of a step of a run. -/
theorem step_fault (h : step s = .fault f) :
    f = .noSuchCell ∨
      s.status = .busy ∧ ∃ rest, sequencerStep (s.withHost rest) = .fault f := by
  simp only [step] at h
  split at h
  · next hh =>
    obtain ⟨hb, hf⟩ := unattendedStep_fault h
    exact .inr ⟨hb, [], by rwa [withHost_self hh]⟩
  · next a rest hh =>
    cases a with
    | present cw =>
      simp only [hostMove, presentCommand] at h
      split at h
      · cases h
      · exact absurd h (exec_ne_fault _ _ _)
    | writeCell i b =>
      simp only [hostMove, hostWrite] at h
      split at h
      · cases h
      · split at h
        · cases h
        · cases h
          exact .inl rfl
    | readCell i =>
      simp only [hostMove, hostRead] at h
      split at h
      · cases h
      · split at h <;> cases h
    | readRegisters => cases h
    | wait =>
      simp only [hostMove, hostWait] at h
      split at h
      · next hb => exact .inr ⟨hb, s.host, h⟩
      · cases h
    | idle =>
      obtain ⟨hb, hf⟩ := unattendedStep_fault h
      exact .inr ⟨hb, rest, hf⟩
    | reset => cases h

theorem step_fault_of_inv (h : s.Inv) (hf : step s = .fault f) :
    f = .noSuchCell ∨ f = .unwrittenCell :=
  (step_fault hf).imp_right fun ⟨hb, rest, hrun⟩ => sequencerStep_fault (withHost_inv h rest) hb hrun

/-- Settles O37: the only faults under the invariant are the host's write beyond `IBUF` and the read
of an unwritten cell. -/
theorem noStepLeavesTheBuffers : Obligations.NoStepLeavesTheBuffers := by
  unfold Obligations.NoStepLeavesTheBuffers
  intro s h
  refine ⟨fun hf => ?_, fun hf => ?_, fun hf => ?_⟩ <;>
    rcases step_fault_of_inv h hf with hf | hf <;> cases hf

end Sys2Proof.Machine
end

section
/-! What a step does to `STATUS`, the other registers and `OBUF` (spec/10_state.md R16,
spec/70_reset_and_hazards.md R146, R147): O39 and O42. -/

namespace Sys2Proof.Machine

variable {s t : State}

/-- A run stays `BUSY`, ends at `POS = ILEN`, or ends at a group of `DECODE` before it. -/
theorem RunStep.status_cases (go : RunStep s t) :
    t.status = s.status ∨ (t.status = .doneOk ∧ s.pos = s.ilen) ∨
      (t.status = .doneErr ∧ s.mode = .dec ∧ s.pos.toNat < s.ilen.toNat) := by
  cases go with
  | encodeBlock => exact .inl rfl
  | decodeBlock => exact .inl rfl
  | invalidInput cs mode more => exact .inr (.inr ⟨rfl, mode, by omega⟩)
  | finish done => exact .inr (.inl ⟨rfl, done⟩)

theorem acceptDecode_status (len : Len) (s : State) :
    (acceptDecode len s).status = .busy ∨ (acceptDecode len s).status = .doneErr := by
  unfold acceptDecode
  split
  · exact .inl rfl
  · exact .inr rfl

/-- A command delivers its result and no more, or it is a message command and is accepted. -/
theorem CommandEffect.pure_or_message {i : Instr} (eff : CommandEffect i s t) :
    (∃ r, t = deliver r s) ∨ (¬ Pure i ∧ (t.status = .busy ∨ t.status = .doneErr)) := by
  cases eff with
  | pure r => exact .inl ⟨r, rfl⟩
  | encode len cmd => subst cmd; exact .inr ⟨not_false, .inl rfl⟩
  | decode len cmd => subst cmd; exact .inr ⟨not_false, acceptDecode_status len s⟩

/-- Settles O39: of the kinds of step, the steps of a run, the message commands and reset alone change
`STATUS`. -/
theorem statusTransitions : Obligations.StatusTransitions := by
  unfold Obligations.StatusTransitions
  intro s t hstep hne
  cases step_next hstep with
  | run rest t busy _ go =>
    rcases go.status_cases with hsame | ⟨hok, hend⟩ | ⟨herr, hmode, hmore⟩
    · exact absurd hsame hne
    · exact .inr (.inl ⟨busy, hok, hend⟩)
    · exact .inr (.inr (.inl ⟨busy, herr, hmode, hmore⟩))
  | command cw i rest t next dec _ _ free eff =>
    rcases eff.pure_or_message with ⟨r, rfl⟩ | ⟨hmsg, hstatus⟩
    · exact absurd rfl hne
    · exact .inl ⟨free, hstatus, _, rest, next, cw, i, rfl, dec, hmsg⟩
  | reset rest next => exact .inr (.inr (.inr ⟨rfl, rest, next⟩))
  | still => exact absurd rfl hne
  | write => exact absurd rfl hne
  | read => exact absurd rfl hne
  | registers => exact absurd rfl hne

/-- Settles O42: outside a run every kind of step but the excluded two changes `IBUF`, the host's list
and the reply at most. -/
theorem resultStaysUntilTheNextMessage : Obligations.ResultStaysUntilTheNextMessage := by
  unfold Obligations.ResultStaysUntilTheNextMessage
  intro s t hstep free quiet
  cases step_next hstep with
  | run _ _ busy => exact absurd busy free
  | command cw i rest t next dec _ _ _ eff =>
    rcases eff.pure_or_message with ⟨r, rfl⟩ | ⟨hmsg, -⟩
    · exact ⟨rfl, rfl, rfl, rfl, rfl, rfl⟩
    · exact absurd ⟨_, rest, next, .inl ⟨cw, i, rfl, dec, hmsg⟩⟩ quiet
  | reset rest next => exact absurd ⟨_, rest, next, .inr rfl⟩ quiet
  | still => exact ⟨rfl, rfl, rfl, rfl, rfl, rfl⟩
  | write => exact ⟨rfl, rfl, rfl, rfl, rfl, rfl⟩
  | read => exact ⟨rfl, rfl, rfl, rfl, rfl, rfl⟩
  | registers => exact ⟨rfl, rfl, rfl, rfl, rfl, rfl⟩

end Sys2Proof.Machine
end

section
/-! The moves of a host that reads, waits or does nothing (spec/30_encoding.md R59), and the state
after reset (R24): O27, O30, O32 and O34. -/

namespace Sys2Proof.Machine

variable {s : State} {rest : List HostAction}

theorem step_of_no_move (hh : s.host = []) : step s = unattendedStep s := by
  simp only [step, hh]

theorem step_of_move {a : HostAction} (hh : s.host = a :: rest) : step s = hostMove a rest s := by
  simp only [step, hh]

theorem unattendedStep_busy (hb : s.status = .busy) : unattendedStep s = sequencerStep s :=
  if_pos hb

theorem unattendedStep_free (hb : s.status ≠ .busy) : unattendedStep s = .next (silent s) :=
  if_neg hb

theorem hostWait_busy (hb : s.status = .busy) : hostWait rest s = sequencerStep s := if_pos hb

theorem hostWait_free (hb : s.status ≠ .busy) :
    hostWait rest s = .next (deliverRegisters (s.withHost rest)) := if_neg hb

theorem hostRead_of_value {i : Nat} {b : Byte} (hb : s.status ≠ .busy)
    (hv : s.obufValue i = some b) : hostRead i s = .next { s with reply := some (.cell b) } := by
  simp only [hostRead, if_neg hb, hv]

theorem hostRead_of_no_value {i : Nat} (hb : s.status ≠ .busy) (hv : s.obufValue i = none) :
    hostRead i s = .refused .cellHoldsNoValue := by
  simp only [hostRead, if_neg hb, hv]

/-- The codes of `STATUS` in R15. -/
theorem Status.code_spec (st : Status) :
    (st.code = 0 ↔ st = .idle) ∧ (st.code = 1 ↔ st = .busy) ∧ (st.code = 2 ↔ st = .doneOk) ∧
      (st.code = 3 ↔ st = .doneErr) := by
  cases st <;> decide

/-- The codes of `MODE` in R15. -/
theorem Mode.code_spec (md : Mode) : (md.code = 0 ↔ md = .enc) ∧ (md.code = 1 ↔ md = .dec) := by
  cases md <;> decide

/-- Settles O30: the invariant lists every cell of the result in `OBUF`. -/
theorem hostReadDeliversACellOfTheResult : Obligations.HostReadDeliversACellOfTheResult := by
  unfold Obligations.HostReadDeliversACellOfTheResult
  intro s i rest h hh
  rw [step_of_move hh]
  constructor
  · intro hs hi
    obtain ⟨b, hb⟩ := read_some_of_cells h.obufCells hi
    have hv : (s.withHost rest).obufValue i = some b := (if_pos ⟨hs, hi⟩).trans hb
    exact ⟨b, hb, hostRead_of_value (by simp [hs]) hv⟩
  · intro hb hno
    exact hostRead_of_no_value (s := s.withHost rest) hb (if_neg hno)

/-- Settles O32: `HST` delivers the codes of the two registers and the other three as they are. -/
theorem hstDeliversTheRegisters : Obligations.HstDeliversTheRegisters := by
  unfold Obligations.HstDeliversTheRegisters
  intro s rest hh
  obtain ⟨hidle, hbusy, hok, herr⟩ := s.status.code_spec
  exact ⟨s.status.code, s.mode.code, step_of_move hh, hidle, hbusy, hok, herr, s.mode.code_spec⟩

/-- Settles O27: the three ways in which the host leaves the block to itself, in a run and outside. -/
theorem unattendedBlock : Obligations.UnattendedBlock := by
  unfold Obligations.UnattendedBlock
  intro s rest
  refine ⟨fun hb => ⟨fun hh => ?_, fun hh => ?_, fun hh => ?_⟩,
    fun hb => ⟨fun hh => ?_, fun hh => ?_, fun hh => ?_⟩⟩
  · rw [step_of_no_move hh, unattendedStep_busy hb]
  · rw [step_of_move hh]
    exact unattendedStep_busy (s := s.withHost rest) hb
  · rw [step_of_move hh]
    exact hostWait_busy hb
  · rw [step_of_no_move hh]
    exact unattendedStep_free hb
  · rw [step_of_move hh]
    exact unattendedStep_free (s := s.withHost rest) hb
  · obtain ⟨hidle, hbusy, hok, herr⟩ := s.status.code_spec
    exact ⟨s.status.code, s.mode.code, (step_of_move hh).trans (hostWait_free hb), hidle, hbusy, hok,
      herr, s.mode.code_spec⟩

/-- Settles O34: every register is at 0, and a buffer that lists no cell holds no value. -/
theorem resetState : Obligations.ResetState := by
  unfold Obligations.ResetState
  exact ⟨rfl, rfl, rfl, rfl, rfl, read_nil, read_nil⟩

end Sys2Proof.Machine
end

section
/-! A presented command (spec/30_encoding.md R52, R60) and the host's write of one cell
(spec/20_memory.md R37, R38): O6 and O29. -/

namespace Sys2Proof.Machine

variable {s : State}

theorem presentCommand_of_decode {w : Word40} {i : Instr} (dec : decode w = .ok i) (s : State) :
    presentCommand w s = exec i s := by
  simp only [presentCommand, dec]

theorem hostWrite_inside {i : Nat} (hb : s.status ≠ .busy) (hi : i < s.cfg.maxLen) (b : Byte) :
    hostWrite i b s = .next { s with ibuf := s.ibuf.write i b, reply := none } := by
  simp only [hostWrite, if_neg hb, if_pos hi]

theorem hostWrite_outside {i : Nat} (hb : s.status ≠ .busy) (hi : s.cfg.maxLen ≤ i) (b : Byte) :
    hostWrite i b s = .fault .noSuchCell := by
  simp only [hostWrite, if_neg hb, if_neg (Nat.not_lt.2 hi)]

/-- Settles O6: the host's next move is taken off its list, and the word's command is executed. -/
theorem stepRunsThePresentedCommand : Obligations.StepRunsThePresentedCommand := by
  unfold Obligations.StepRunsThePresentedCommand
  intro s w i rest hh dec
  exact (step_of_move hh).trans (presentCommand_of_decode dec (s.withHost rest))

/-- Settles O29: what is stored is `Memory.write`, whose laws give each cell afterwards. -/
theorem hostWriteStoresOneCell : Obligations.HostWriteStoresOneCell := by
  unfold Obligations.HostWriteStoresOneCell
  intro s i b rest hh hb
  rw [step_of_move hh]
  constructor
  · intro hi
    exact ⟨_, hostWrite_inside (s := s.withHost rest) hb hi b, rfl, read_write_same s.ibuf i b,
      fun a ha => read_write_other s.ibuf b ha⟩
  · intro hi
    exact hostWrite_outside (s := s.withHost rest) hb hi b

end Sys2Proof.Machine
end

section
/-! `IBUF` through a step (spec/20_memory.md R33): one frame fact per kind of step, and O41. -/

namespace Sys2Proof.Machine

variable {s t : State}

@[simp] theorem acceptDecode_ibuf (len : Len) : (acceptDecode len s).ibuf = s.ibuf := by
  unfold acceptDecode
  split
  · exact acceptMessage_ibuf s .dec len
  · simp

theorem RunStep.ibuf_eq (go : RunStep s t) : t.ibuf = s.ibuf := by
  cases go with
  | encodeBlock => rfl
  | decodeBlock => rfl
  | invalidInput => exact raiseInvalidInput_ibuf s
  | finish => exact finishRun_ibuf s

theorem CommandEffect.ibuf_eq {i : Instr} (eff : CommandEffect i s t) : t.ibuf = s.ibuf := by
  cases eff with
  | pure r => exact deliver_ibuf s r
  | encode len => exact acceptMessage_ibuf s .enc len
  | decode len => exact acceptDecode_ibuf len

/-- Settles O41: of the kinds of step, only `HWR` and reset do not keep `IBUF`. -/
theorem blockNeverWritesTheInputBuffer : Obligations.BlockNeverWritesTheInputBuffer := by
  unfold Obligations.BlockNeverWritesTheInputBuffer
  intro s t hstep hne
  cases step_next hstep with
  | write i b rest next => exact ⟨_, rest, next, .inl ⟨i, b, rfl⟩⟩
  | reset rest next => exact ⟨_, rest, next, .inr rfl⟩
  | run rest t _ _ go => exact absurd go.ibuf_eq hne
  | command cw i rest t _ _ _ _ _ eff => exact absurd eff.ibuf_eq hne
  | still => exact absurd rfl hne
  | read => exact absurd rfl hne
  | registers => exact absurd rfl hne

end Sys2Proof.Machine
end

section
/-! Which step the sequencer takes (spec/42_encoder.md R99, spec/43_decoder.md R118): one equation
per branch of `sequencerStep`. -/

namespace Sys2Proof.Machine

variable {s : State}

theorem sequencerStep_encodeBlock (hm : s.mode = .enc) (more : s.pos.toNat < s.ilen.toNat) :
    sequencerStep s = encodeBlockStep s := by
  simp only [sequencerStep, if_pos more, hm]

theorem sequencerStep_decodeBlock (hm : s.mode = .dec) (more : s.pos.toNat < s.ilen.toNat) :
    sequencerStep s = decodeBlockStep s := by
  simp only [sequencerStep, if_pos more, hm]

/-- The finish step is the same in both directions. -/
theorem sequencerStep_finish (done : s.pos = s.ilen) :
    sequencerStep s = .next (finishRun s) := by
  have hend : ¬ s.pos.toNat < s.ilen.toNat := by simp [done]
  simp only [sequencerStep, if_neg hend, if_pos done]
  cases s.mode <;> rfl

theorem sequencerStep_stuck (hend : ¬ s.pos.toNat < s.ilen.toNat) (hne : s.pos ≠ s.ilen) :
    sequencerStep s = .fault .noStepEnabled := by
  simp only [sequencerStep, if_neg hend, if_neg hne]

end Sys2Proof.Machine
end

section
/-! A run reads the cells of its message and no others (spec/20_memory.md R33): the sequencer's step
commutes with replacing `IBUF` by a memory that agrees below `ILEN` (O45). -/

namespace Sys2Proof.Machine

/-- The state with the input buffer `m`. -/
def State.withIbuf (s : State) (m : Memory) : State := { s with ibuf := m }

/-- The outcome of a step with the input buffer `m` in its next state. -/
def outcomeWithIbuf (m : Memory) : StepResult → StepResult
  | .next t => .next (t.withIbuf m)
  | .fault f => .fault f
  | .refused r => .refused r

section
variable (s : State) (m : Memory)

@[simp] theorem withIbuf_ilen : (s.withIbuf m).ilen = s.ilen := rfl
@[simp] theorem withIbuf_pos : (s.withIbuf m).pos = s.pos := rfl
@[simp] theorem withIbuf_ibuf : (s.withIbuf m).ibuf = m := rfl
@[simp] theorem encodeCount_withIbuf : encodeCount (s.withIbuf m) = encodeCount s := rfl
@[simp] theorem finalGroup_withIbuf : finalGroup (s.withIbuf m) = finalGroup s := rfl

end

theorem readMany_congr {m m' : Memory} {addr n : Nat}
    (agree : ∀ a, addr ≤ a → a < addr + n → m'.read a = m.read a) :
    m'.readMany addr n = m.readMany addr n := by
  induction n generalizing addr with
  | zero => rfl
  | succ n ih =>
    have hrest := ih (addr := addr + 1) fun a hl hu => agree a (by omega) (by omega)
    simp only [Memory.readMany, agree addr (Nat.le_refl _) (by omega), hrest]

theorem appendOutput_withIbuf (bs : List Byte) (s : State) (m : Memory) :
    appendOutput bs (s.withIbuf m) = (appendOutput bs s).map (·.withIbuf m) := by
  by_cases room : s.olen.toNat + bs.length ≤ s.cfg.ocap
  · exact (if_pos room).trans (by rw [appendOutput, if_pos room]; rfl)
  · exact (if_neg room).trans (by rw [appendOutput, if_neg room]; rfl)

variable {s : State} {m : Memory}

section
variable (agree : ∀ a, a < s.ilen.toNat → m.read a = s.ibuf.read a)
include agree

theorem readMessage_withIbuf (n : Nat) : readMessage n (s.withIbuf m) = readMessage n s := by
  by_cases inside : s.pos.toNat + n ≤ s.ilen.toNat
  · have hcells : m.readMany s.pos.toNat n = s.ibuf.readMany s.pos.toNat n :=
      readMany_congr fun a _ hu => agree a (by omega)
    simp only [readMessage, withIbuf_pos, withIbuf_ilen, withIbuf_ibuf, if_pos inside, hcells]
  · exact (if_neg inside).trans (if_neg inside).symm

theorem encodeBlockStep_withIbuf :
    encodeBlockStep (s.withIbuf m) = outcomeWithIbuf m (encodeBlockStep s) := by
  simp only [encodeBlockStep, encodeCount_withIbuf, readMessage_withIbuf agree,
    appendOutput_withIbuf]
  cases readMessage (encodeCount s) s with
  | error f => rfl
  | ok bs =>
    dsimp only
    cases appendOutput (encodeBlock (encodeCount s) (byteLane bs 0) (byteLane bs 1)
      (byteLane bs 2)) s <;> rfl

theorem decodeBlockStep_withIbuf :
    decodeBlockStep (s.withIbuf m) = outcomeWithIbuf m (decodeBlockStep s) := by
  simp only [decodeBlockStep, finalGroup_withIbuf, readMessage_withIbuf agree,
    appendOutput_withIbuf]
  cases readMessage 4 s with
  | error f => rfl
  | ok cs =>
    dsimp only
    cases decodeBlock (byteLane cs 0) (byteLane cs 1) (byteLane cs 2) (byteLane cs 3)
      (finalGroup s) with
    | none => rfl
    | some ys =>
      dsimp only
      cases appendOutput ys s <;> rfl

theorem sequencerStep_withIbuf :
    sequencerStep (s.withIbuf m) = outcomeWithIbuf m (sequencerStep s) := by
  by_cases more : s.pos.toNat < s.ilen.toNat
  · cases hm : s.mode with
    | enc =>
      rw [sequencerStep_encodeBlock hm more, sequencerStep_encodeBlock (s := s.withIbuf m) hm more,
        encodeBlockStep_withIbuf agree]
    | dec =>
      rw [sequencerStep_decodeBlock hm more, sequencerStep_decodeBlock (s := s.withIbuf m) hm more,
        decodeBlockStep_withIbuf agree]
  · by_cases done : s.pos = s.ilen
    · rw [sequencerStep_finish done, sequencerStep_finish (s := s.withIbuf m) done]
      rfl
    · rw [sequencerStep_stuck more done, sequencerStep_stuck (s := s.withIbuf m) more done]
      rfl

end

/-- Settles O45: the step on the replaced buffer is the step's outcome with the buffer replaced. -/
theorem cellsAboveTheMessageAreNotRead : Obligations.CellsAboveTheMessageAreNotRead := by
  unfold Obligations.CellsAboveTheMessageAreNotRead
  intro s m agree
  have hcomm : sequencerStep { s with ibuf := m } = outcomeWithIbuf m (sequencerStep s) :=
    sequencerStep_withIbuf agree
  exact ⟨fun t hnext => by rw [hcomm, hnext]; rfl, fun f hfault => by rw [hcomm, hfault]; rfl⟩

end Sys2Proof.Machine
end

section
/-! The repacker's shift formulas are slices of the 24-bit group (spec/20_memory.md R34,
spec/41_repacker.md R80, R83, R87): each is compared with its slice bit by bit (O17). -/

namespace Sys2Proof.Machine

section
variable (b0 b1 b2 : Byte)

/-- The four shift formulas of `GATHER`, each equal to its slice in all 6 bits. -/
theorem sixBitFields_append :
    sixBitFields (b0 ++ b1 ++ b2) =
      [b0 >>> 2, (b0 &&& 0x03) <<< 4 ||| b1 >>> 4, (b1 &&& 0x0F) <<< 2 ||| b2 >>> 6,
        b2 &&& 0x3F].map (fun f => f.setWidth 6) := by
  simp only [sixBitFields, List.map_cons, List.map_nil, List.cons.injEq, and_true]
  refine ⟨?_, ?_, ?_, ?_⟩
  all_goals
    refine BitVec.eq_of_getLsbD_eq fun k hk => ?_
    simp only [BitVec.getLsbD_extractLsb', BitVec.getLsbD_append]
    interval_cases k <;> simp

/-- The fields of `GATHER`; an absent byte is 0 in the formulas and in the group alike (R81). -/
theorem gather_eq_slices (n : Nat) :
    gather n b0 b1 b2 = (sixBitFields (byteGroup n b0 b1 b2)).take (n + 1) := by
  rw [byteGroup, sixBitFields_append]
  rfl

end

section
variable (v0 v1 v2 v3 : Sym)

/-- The three shift formulas of `SCATTER`, each equal to its slice in all 8 bits. -/
theorem groupBytes_append :
    groupBytes (v0 ++ v1 ++ v2 ++ v3) =
      [trunc8 (v0.setWidth 16 <<< 2 ||| v1.setWidth 16 >>> 4),
        trunc8 (v1.setWidth 16 <<< 4 ||| v2.setWidth 16 >>> 2),
        trunc8 (v2.setWidth 16 <<< 6 ||| v3.setWidth 16)] := by
  simp only [groupBytes, List.cons.injEq, and_true]
  refine ⟨?_, ?_, ?_⟩
  all_goals
    refine BitVec.eq_of_getLsbD_eq fun k hk => ?_
    simp only [BitVec.getLsbD_extractLsb', BitVec.getLsbD_append]
    interval_cases k <;> simp [trunc8]

/-- The bytes of `SCATTER`; an absent value is 0 in the formulas and in the group alike (R84). -/
theorem scatter_eq_slices (m : Nat) :
    scatter m v0 v1 v2 v3 =
      (groupBytes (v0 ++ v1 ++ (if 3 ≤ m then v2 else 0#6) ++ (if 4 ≤ m then v3 else 0#6))).take
        (m - 1) := by
  simp only [groupBytes_append, scatter, apply_ite (BitVec.setWidth 16), BitVec.setWidth_zero]
  rfl

end

/-- Settles O17: the slicing of both directions, `SCATTER` at the three counts it admits. -/
theorem repackerIsBitSlicing : Obligations.RepackerIsBitSlicing := by
  unfold Obligations.RepackerIsBitSlicing
  exact ⟨fun n b0 b1 b2 => gather_eq_slices b0 b1 b2 n, fun v0 v1 v2 v3 =>
    ⟨scatter_eq_slices v0 v1 v2 v3 2, scatter_eq_slices v0 v1 v2 v3 3,
      scatter_eq_slices v0 v1 v2 v3 4⟩⟩

end Sys2Proof.Machine
end

section
/-! The fields of the command word (spec/30_encoding.md R50): a word is its operation code, its `aux`
field and its four lanes, and what a row's mask and a command's operands say is said of these. -/

namespace Sys2Proof

/-- `CW[35:32]`, the field `aux` (R50). -/
def auxOf (w : Word40) : BitVec 4 := w.extractLsb' 32 4

theorem append_eq_append_iff {m n : Nat} {x x' : BitVec m} {y y' : BitVec n} :
    x ++ y = x' ++ y' ↔ x = x' ∧ y = y' := by
  constructor
  · intro h
    have hx := congrArg (BitVec.extractLsb' n m) h
    have hy := congrArg (BitVec.extractLsb' 0 n) h
    simp only [BitVec.extractLsb'_append_eq_left, BitVec.extractLsb'_append_eq_right] at hx hy
    exact ⟨hx, hy⟩
  · rintro ⟨rfl, rfl⟩
    rfl

section
variable {op aux op' aux' : BitVec 4} {l0 l1 l2 l3 l0' l1' l2' l3' : Byte} {w : Word40}

theorem laneWord_inj : laneWord op aux l0 l1 l2 l3 = laneWord op' aux' l0' l1' l2' l3' ↔
    op = op' ∧ aux = aux' ∧ l0 = l0' ∧ l1 = l1' ∧ l2 = l2' ∧ l3 = l3' := by
  have outer : laneWord op aux l0 l1 l2 l3 = laneWord op' aux' l0' l1' l2' l3' ↔
      op ++ aux ++ l0 ++ l1 ++ l2 = op' ++ aux' ++ l0' ++ l1' ++ l2' ∧ l3 = l3' := append_eq_append_iff
  simp only [outer, append_eq_append_iff, and_assoc]

theorem laneWord_and : laneWord op aux l0 l1 l2 l3 &&& laneWord op' aux' l0' l1' l2' l3' =
    laneWord (op &&& op') (aux &&& aux') (l0 &&& l0') (l1 &&& l1') (l2 &&& l2') (l3 &&& l3') := by
  have outer : laneWord op aux l0 l1 l2 l3 &&& laneWord op' aux' l0' l1' l2' l3' =
      (op ++ aux ++ l0 ++ l1 ++ l2 &&& op' ++ aux' ++ l0' ++ l1' ++ l2') ++ (l3 &&& l3') :=
    BitVec.and_append
  rw [outer, BitVec.and_append, BitVec.and_append, BitVec.and_append, BitVec.and_append, laneWord]

theorem laneWord_fields (w : Word40) :
    laneWord (opOf w) (auxOf w) (lane0 w) (lane1 w) (lane2 w) (lane3 w) = w := by
  refine BitVec.eq_of_getLsbD_eq fun k hk => ?_
  simp only [laneWord, BitVec.getLsbD_append, opOf, auxOf, lane0, lane1, lane2, lane3,
    BitVec.getLsbD_extractLsb']
  interval_cases k <;> rfl

theorem laneWord_eq_iff : laneWord op aux l0 l1 l2 l3 = w ↔ op = opOf w ∧ aux = auxOf w ∧
    l0 = lane0 w ∧ l1 = lane1 w ∧ l2 = lane2 w ∧ l3 = lane3 w := by
  rw [← laneWord_inj, laneWord_fields]

theorem messageWord_eq_iff {len : Len} :
    messageWord op len = w ↔ op = opOf w ∧ 0 = auxOf w ∧ len = lenOf w := by
  have fields : opOf w ++ auxOf w ++ lenOf w = w := by
    refine BitVec.eq_of_getLsbD_eq fun k hk => ?_
    simp only [BitVec.getLsbD_append, opOf, auxOf, lenOf, BitVec.getLsbD_extractLsb']
    interval_cases k <;> rfl
  rw [messageWord, ← and_assoc, ← append_eq_append_iff, ← append_eq_append_iff]
  simp only [fields, BitVec.ofNat_eq_ofNat]

theorem countN_eq (w : Word40) : countN w = (auxOf w).setWidth 2 := by
  refine BitVec.eq_of_getLsbD_eq fun k hk => ?_
  interval_cases k <;> simp [countN, auxOf]

theorem countM_eq (w : Word40) : countM w = (auxOf w).setWidth 3 := by
  refine BitVec.eq_of_getLsbD_eq fun k hk => ?_
  interval_cases k <;> simp [countM, auxOf]

theorem finalBit_eq (w : Word40) : finalBit w = (auxOf w).getLsbD 0 := by
  simp [finalBit, auxOf]

/-- A row that is written by fields selects a word field by field. -/
theorem selects_iff :
    Row.selects ⟨laneWord op aux l0 l1 l2 l3, laneWord op' aux' l0' l1' l2' l3'⟩ w = true ↔
      opOf w &&& op' = op ∧ auxOf w &&& aux' = aux ∧ lane0 w &&& l0' = l0 ∧
      lane1 w &&& l1' = l1 ∧ lane2 w &&& l2' = l2 ∧ lane3 w &&& l3' = l3 := by
  rw [Row.selects, beq_iff_eq, ← laneWord_inj, ← laneWord_and, laneWord_fields]

@[simp] theorem and_allOnes_nibble (x : BitVec 4) : x &&& 0xF#4 = x := BitVec.and_allOnes

@[simp] theorem and_allOnes_byte (x : Byte) : x &&& 0xFF#8 = x := BitVec.and_allOnes

end

section
/-! The nine rows of R53 by fields. -/

variable {w : Word40}

theorem charforRow_selects : charforRow.selects w = true ↔
    opOf w = 0x0 ∧ auxOf w = 0 ∧ lane0 w = 0 ∧ lane1 w = 0 ∧ lane2 w = 0 := by
  rw [show charforRow = ⟨laneWord 0x0 0 0 0 0 0, laneWord 0xF 0xF 0xFF 0xFF 0xFF 0⟩ by decide,
    selects_iff]
  simp

theorem valueforRow_selects : valueforRow.selects w = true ↔
    opOf w = 0x1 ∧ auxOf w = 0 ∧ lane0 w = 0 ∧ lane1 w = 0 ∧ lane2 w = 0 := by
  rw [show valueforRow = ⟨laneWord 0x1 0 0 0 0 0, laneWord 0xF 0xF 0xFF 0xFF 0xFF 0⟩ by decide,
    selects_iff]
  simp

theorem padcharRow_selects : padcharRow.selects w = true ↔
    opOf w = 0x2 ∧ auxOf w = 0 ∧ lane0 w = 0 ∧ lane1 w = 0 ∧ lane2 w = 0 ∧ lane3 w = 0 := by
  rw [show padcharRow = ⟨laneWord 0x2 0 0 0 0 0, laneWord 0xF 0xF 0xFF 0xFF 0xFF 0xFF⟩ by decide,
    selects_iff]
  simp

theorem gatherRow_selects : gatherRow.selects w = true ↔
    opOf w = 0x4 ∧ auxOf w &&& 0xC = 0 ∧ lane3 w = 0 := by
  rw [show gatherRow = ⟨laneWord 0x4 0 0 0 0 0, laneWord 0xF 0xC 0 0 0 0xFF⟩ by decide,
    selects_iff]
  simp

theorem scatterRow_selects : scatterRow.selects w = true ↔
    opOf w = 0x5 ∧ auxOf w &&& 0x8 = 0 := by
  rw [show scatterRow = ⟨laneWord 0x5 0 0 0 0 0, laneWord 0xF 0x8 0 0 0 0⟩ by decide,
    selects_iff]
  simp

theorem encblkRow_selects : encblkRow.selects w = true ↔
    opOf w = 0x8 ∧ auxOf w &&& 0xC = 0 ∧ lane3 w = 0 := by
  rw [show encblkRow = ⟨laneWord 0x8 0 0 0 0 0, laneWord 0xF 0xC 0 0 0 0xFF⟩ by decide,
    selects_iff]
  simp

theorem decblkRow_selects : decblkRow.selects w = true ↔
    opOf w = 0x9 ∧ auxOf w &&& 0xE = 0 := by
  rw [show decblkRow = ⟨laneWord 0x9 0 0 0 0 0, laneWord 0xF 0xE 0 0 0 0⟩ by decide,
    selects_iff]
  simp

theorem encodeRow_selects : encodeRow.selects w = true ↔
    opOf w = 0xC ∧ auxOf w = 0 := by
  rw [show encodeRow = ⟨laneWord 0xC 0 0 0 0 0, laneWord 0xF 0xF 0 0 0 0⟩ by decide,
    selects_iff]
  simp

theorem decodeRow_selects : decodeRow.selects w = true ↔
    opOf w = 0xD ∧ auxOf w = 0 := by
  rw [show decodeRow = ⟨laneWord 0xD 0 0 0 0 0, laneWord 0xF 0xF 0 0 0 0⟩ by decide,
    selects_iff]
  simp

end

end Sys2Proof
end

section
/-! What the decoder reads from a word, and that it agrees with the encoder (spec/30_encoding.md R50,
R53): O2 and O3. -/

namespace Sys2Proof

/-- The operation code of the word is that of the command, and the operands stand in the fields of
R53; the must-be-zero bits and the constraints on the operands are left out. -/
def ReadsAs (w : Word40) : Instr → Prop
  | .charfor v8 => opOf w = 0x0 ∧ v8 = lane3 w
  | .valuefor c => opOf w = 0x1 ∧ c = lane3 w
  | .padchar => opOf w = 0x2
  | .gather n b0 b1 b2 => opOf w = 0x4 ∧ n = countN w ∧ b0 = lane0 w ∧ b1 = lane1 w ∧ b2 = lane2 w
  | .scatter m l0 l1 l2 l3 => opOf w = 0x5 ∧ m = countM w ∧ l0 = lane0 w ∧ l1 = lane1 w ∧
      l2 = lane2 w ∧ l3 = lane3 w
  | .encblk n b0 b1 b2 => opOf w = 0x8 ∧ n = countN w ∧ b0 = lane0 w ∧ b1 = lane1 w ∧ b2 = lane2 w
  | .decblk final c0 c1 c2 c3 => opOf w = 0x9 ∧ final = finalBit w ∧ c0 = lane0 w ∧ c1 = lane1 w ∧
      c2 = lane2 w ∧ c3 = lane3 w
  | .encode len => opOf w = 0xC ∧ len = lenOf w
  | .decode len => opOf w = 0xD ∧ len = lenOf w

variable {w : Word40} {i j : Instr}

/-- The four bits of `aux` are two must-be-zero bits and the count `n` (R53). -/
theorem aux_eq_countN : ∀ (n : BitVec 2) (aux : BitVec 4),
    n.setWidth 4 = aux ↔ n = aux.setWidth 2 ∧ aux &&& 0xC = 0 := by decide

theorem aux_eq_countM : ∀ (m : BitVec 3) (aux : BitVec 4),
    m.setWidth 4 = aux ↔ m = aux.setWidth 3 ∧ aux &&& 0x8 = 0 := by decide

theorem aux_eq_final : ∀ (final : Bool) (aux : BitVec 4),
    (if final then 1 else 0) = aux ↔ final = aux.getLsbD 0 ∧ aux &&& 0xE = 0 := by decide

/-- A word is that of a command exactly when the command is read from it and no must-be-zero bit is
set: operands and must-be-zero bits fill the word. -/
theorem encode_eq_iff : encode i = w ↔ ReadsAs w i ∧ (rowOf i).selects w = true := by
  cases i with
  | charfor v8 | valuefor c | padchar =>
    simp only [encode, laneWord_eq_iff, ReadsAs, rowOf, charforRow_selects, valueforRow_selects,
      padcharRow_selects]
    grind
  | gather n b0 b1 b2 | encblk n b0 b1 b2 =>
    simp only [encode, laneWord_eq_iff, aux_eq_countN, ReadsAs, countN_eq, rowOf, gatherRow_selects,
      encblkRow_selects]
    grind
  | scatter m l0 l1 l2 l3 =>
    simp only [encode, laneWord_eq_iff, aux_eq_countM, ReadsAs, countM_eq, rowOf, scatterRow_selects]
    grind
  | decblk final c0 c1 c2 c3 =>
    simp only [encode, laneWord_eq_iff, aux_eq_final, ReadsAs, finalBit_eq, rowOf, decblkRow_selects]
    grind
  | encode len | decode len =>
    simp only [encode, messageWord_eq_iff, ReadsAs, rowOf, encodeRow_selects, decodeRow_selects]
    grind

theorem decode_of_readsAs (reads : ReadsAs w i) : decode w = decodeAs (rowOf i) w i := by
  cases i with
  | charfor v8 | valuefor c | encode len | decode len =>
    obtain ⟨op, rfl⟩ := reads
    simp [decode, op, rowOf]
  | padchar =>
    have op : opOf w = 0x2 := reads
    simp [decode, op, rowOf]
  | gather n b0 b1 b2 | encblk n b0 b1 b2 =>
    obtain ⟨op, rfl, rfl, rfl, rfl⟩ := reads
    simp [decode, op, rowOf]
  | scatter m l0 l1 l2 l3 | decblk final l0 l1 l2 l3 =>
    obtain ⟨op, rfl, rfl, rfl, rfl, rfl⟩ := reads
    simp [decode, op, rowOf]

/-- Every operation code is assigned to one command or to none. -/
theorem opcode_cases : ∀ op : BitVec 4, op = 0x0 ∨ op = 0x1 ∨ op = 0x2 ∨ op = 0x4 ∨ op = 0x5 ∨
    op = 0x8 ∨ op = 0x9 ∨ op = 0xC ∨ op = 0xD ∨
    op ∈ ([0x3, 0x6, 0x7, 0xA, 0xB, 0xE, 0xF] : List (BitVec 4)) := by decide

theorem readsAs_or_unassigned (w : Word40) : (∃ i, ReadsAs w i) ∨ Machine.UnassignedOp w := by
  rcases opcode_cases (opOf w) with op | op | op | op | op | op | op | op | op | op
  · exact .inl ⟨.charfor _, op, rfl⟩
  · exact .inl ⟨.valuefor _, op, rfl⟩
  · exact .inl ⟨.padchar, op⟩
  · exact .inl ⟨.gather _ _ _ _, op, rfl, rfl, rfl, rfl⟩
  · exact .inl ⟨.scatter _ _ _ _ _, op, rfl, rfl, rfl, rfl, rfl⟩
  · exact .inl ⟨.encblk _ _ _ _, op, rfl, rfl, rfl, rfl⟩
  · exact .inl ⟨.decblk _ _ _ _ _, op, rfl, rfl, rfl, rfl, rfl⟩
  · exact .inl ⟨.encode _, op, rfl⟩
  · exact .inl ⟨.decode _, op, rfl⟩
  · exact .inr op

theorem decode_of_unassigned (h : Machine.UnassignedOp w) : decode w = .error .unassignedOp := by
  have op : opOf w ∈ ([0x3, 0x6, 0x7, 0xA, 0xB, 0xE, 0xF] : List (BitVec 4)) := h
  simp only [List.mem_cons, List.not_mem_nil, or_false] at op
  rcases op with op | op | op | op | op | op | op <;> simp [decode, op]

theorem decodeAs_ok_iff {r : Row} :
    decodeAs r w i = .ok j ↔ r.selects w = true ∧ i.wf = true ∧ i = j := by
  cases sel : r.selects w <;> cases ill : i.illFormed <;> simp [decodeAs, sel, ill, Instr.wf]

/-- What decoding accepts (R53, R55): the command that is read, when the must-be-zero bits are zero
and the operands meet their constraints. -/
theorem decode_ok_iff :
    decode w = .ok i ↔ ReadsAs w i ∧ (rowOf i).selects w = true ∧ i.wf = true := by
  constructor
  · intro h
    rcases readsAs_or_unassigned w with ⟨j, reads⟩ | un
    · rw [decode_of_readsAs reads] at h
      obtain ⟨sel, wf, rfl⟩ := decodeAs_ok_iff.1 h
      exact ⟨reads, sel, wf⟩
    · rw [decode_of_unassigned un] at h
      cases h
  · rintro ⟨reads, sel, wf⟩
    rw [decode_of_readsAs reads]
    exact decodeAs_ok_iff.2 ⟨sel, wf, rfl⟩

/-- Decoding is the inverse of encoding, on the well-formed commands and on no other. -/
theorem decode_ok_iff_encode : decode w = .ok i ↔ i.wf = true ∧ encode i = w := by
  rw [decode_ok_iff, encode_eq_iff, ← and_assoc, and_comm]

theorem decode_encode (wf : i.wf = true) : decode (encode i) = .ok i :=
  decode_ok_iff_encode.2 ⟨wf, rfl⟩

/-- Settles O2: the word of a command reads as the command, and its row selects it. -/
theorem decodeOfEncodeIsTheCommand : Obligations.DecodeOfEncodeIsTheCommand := by
  unfold Obligations.DecodeOfEncodeIsTheCommand
  exact fun _ wf => decode_encode wf

/-- Settles O3: the operands read from a word and its must-be-zero bits make up the whole word. -/
theorem encodeOfDecodeIsTheWord : Obligations.EncodeOfDecodeIsTheWord := by
  unfold Obligations.EncodeOfDecodeIsTheWord
  exact fun _ _ dec => decode_ok_iff_encode.1 dec

end Sys2Proof
end

section
/-! The reserved words of R55 (a) to (e), by the fields of the word: O4 and O5. -/

namespace Sys2Proof.Machine

variable {w : Word40} {i : Instr} {s : State}

section
variable (w)

theorem extract_op : w.extractLsb' 36 4 = opOf w := rfl

theorem extract_lane0_to_aux :
    w.extractLsb' 8 28 = 0 ↔ auxOf w = 0 ∧ lane0 w = 0 ∧ lane1 w = 0 ∧ lane2 w = 0 := by
  have fields : w.extractLsb' 8 28 = auxOf w ++ lane0 w ++ lane1 w ++ lane2 w := by
    refine BitVec.eq_of_getLsbD_eq fun k hk => ?_
    simp only [BitVec.getLsbD_append, auxOf, lane0, lane1, lane2, BitVec.getLsbD_extractLsb']
    interval_cases k <;> rfl
  have zero : (0 : BitVec 28) = 0#4 ++ 0#8 ++ 0#8 ++ 0#8 := rfl
  rw [fields, zero, append_eq_append_iff, append_eq_append_iff, append_eq_append_iff, and_assoc,
    and_assoc]
  rfl

theorem extract_all_but_op : w.extractLsb' 0 36 = 0 ↔
    auxOf w = 0 ∧ lane0 w = 0 ∧ lane1 w = 0 ∧ lane2 w = 0 ∧ lane3 w = 0 := by
  have fields : w.extractLsb' 0 36 = w.extractLsb' 8 28 ++ lane3 w := by
    refine BitVec.eq_of_getLsbD_eq fun k hk => ?_
    simp only [BitVec.getLsbD_append, lane3, BitVec.getLsbD_extractLsb']
    interval_cases k <;> rfl
  have zero : (0 : BitVec 36) = 0#28 ++ 0#8 := rfl
  have := extract_lane0_to_aux w
  rw [fields, zero, append_eq_append_iff]
  grind

theorem extract_above_countN : w.extractLsb' 34 2 = 0 ↔ auxOf w &&& 0xC = 0 := by
  have fields : w.extractLsb' 34 2 = (auxOf w).extractLsb' 2 2 := by
    refine BitVec.eq_of_getLsbD_eq fun k hk => ?_
    interval_cases k <;> simp [auxOf]
  have nibble : ∀ aux : BitVec 4, aux.extractLsb' 2 2 = 0 ↔ aux &&& 0xC = 0 := by decide
  rw [fields, nibble]

theorem bit_above_countM : w.getLsbD 35 = true ↔ ¬ auxOf w &&& 0x8 = 0 := by
  have fields : w.getLsbD 35 = (auxOf w).getLsbD 3 := by simp [auxOf]
  have nibble : ∀ aux : BitVec 4, aux.getLsbD 3 = true ↔ ¬ aux &&& 0x8 = 0 := by decide
  rw [fields, nibble]

theorem extract_above_final : w.extractLsb' 33 3 = 0 ↔ auxOf w &&& 0xE = 0 := by
  have fields : w.extractLsb' 33 3 = (auxOf w).extractLsb' 1 3 := by
    refine BitVec.eq_of_getLsbD_eq fun k hk => ?_
    interval_cases k <;> simp [auxOf]
  have nibble : ∀ aux : BitVec 4, aux.extractLsb' 1 3 = 0 ↔ aux &&& 0xE = 0 := by decide
  rw [fields, nibble]

end

/-- R55 (b): a must-be-zero bit is 1 exactly when the row of the operation code does not select the
word. -/
theorem mustBeZeroSet_iff (reads : ReadsAs w i) : MustBeZeroSet w ↔ ¬ (rowOf i).selects w = true := by
  have aux32 : w.extractLsb' 32 4 = auxOf w := rfl
  have lane3low : w.extractLsb' 0 8 = lane3 w := rfl
  simp only [MustBeZeroSet, extract_op, aux32, lane3low, ne_eq, extract_lane0_to_aux,
    extract_all_but_op, extract_above_countN, bit_above_countM, extract_above_final]
  cases i with
  | charfor v8 | valuefor c | padchar =>
    simp only [ReadsAs] at reads
    simp [reads, rowOf, charforRow_selects, valueforRow_selects, padcharRow_selects]
  | gather n b0 b1 b2 | encblk n b0 b1 b2 =>
    obtain ⟨op, -⟩ := reads
    simp [op, rowOf, gatherRow_selects, encblkRow_selects, imp_iff_not_or]
  | scatter m l0 l1 l2 l3 | decblk final c0 c1 c2 c3 =>
    obtain ⟨op, -⟩ := reads
    simp [op, rowOf, scatterRow_selects, decblkRow_selects]
  | encode len | decode len =>
    obtain ⟨op, -⟩ := reads
    simp [op, rowOf, encodeRow_selects, decodeRow_selects]

theorem laneIsSymbol_iff : ∀ l : Byte, laneIsSymbol l = true ↔ l.extractLsb' 6 2 = 0 := by decide

theorem readsAs_not_unassigned (reads : ReadsAs w i) : ¬ UnassignedOp w := by
  simp only [UnassignedOp, extract_op]
  cases i with
  | padchar => simp [show opOf w = 0x2 from reads]
  | _ =>
    obtain ⟨op, -⟩ := reads
    simp [op]

/-- R55 (d) and (e) on the operands: the count is 2, 3 or 4, and the top bits of the lanes it counts
are 0. -/
theorem illFormedSymbols_none_iff {m : BitVec 3} {l0 l1 l2 l3 : Byte} :
    illFormedSymbols m l0 l1 l2 l3 = none ↔ (2 ≤ m.toNat ∧ m.toNat ≤ 4) ∧
      ∀ l ∈ [l0, l1, l2, l3].take m.toNat, l.extractLsb' 6 2 = 0 := by
  simp only [illFormedSymbols, ← laneIsSymbol_iff, ← List.all_eq_true]
  split
  · have count : ¬ (2 ≤ m.toNat ∧ m.toNat ≤ 4) := by omega
    simp [count]
  · have count : 2 ≤ m.toNat ∧ m.toNat ≤ 4 := by omega
    simp [count]

theorem badSymbolCount_values : ∀ m : BitVec 3,
    m ∈ ([0, 1, 5, 6, 7] : List (BitVec 3)) ↔ ¬ (2 ≤ m.toNat ∧ m.toNat ≤ 4) := by decide

/-- The top bits of lane `k` stand at `31 - 8 * k` and below (R50). -/
theorem lane_top_bits (w : Word40) {k : Nat} (hk : k < 4) :
    [lane0 w, lane1 w, lane2 w, lane3 w][k].extractLsb' 6 2 = w.extractLsb' (30 - 8 * k) 2 := by
  refine BitVec.eq_of_getLsbD_eq fun b hb => ?_
  interval_cases k <;> interval_cases b <;> simp [lane0, lane1, lane2, lane3]

theorem symbolTopBits_iff (op : opOf w = 0x5) : SymbolTopBits w ↔
    ¬ ∀ l ∈ [lane0 w, lane1 w, lane2 w, lane3 w].take (countM w).toNat, l.extractLsb' 6 2 = 0 := by
  push Not
  constructor
  · rintro ⟨-, k, hm, hk, top⟩
    exact ⟨_, List.mem_take_iff_getElem.2 ⟨k, lt_min hm hk, rfl⟩, (lane_top_bits w hk).trans_ne top⟩
  · rintro ⟨l, mem, top⟩
    obtain ⟨k, hk, rfl⟩ := List.mem_take_iff_getElem.1 mem
    obtain ⟨hm, hk⟩ := lt_min_iff.1 hk
    exact ⟨op, k, hm, hk, (lane_top_bits w hk).symm.trans_ne top⟩

/-- R55 (c) to (e): the constraints on the operands. -/
theorem operands_reserved_iff (reads : ReadsAs w i) :
    EmptyGroup w ∨ BadSymbolCount w ∨ SymbolTopBits w ↔ ¬ i.wf = true := by
  have count32 : w.extractLsb' 32 2 = countN w := rfl
  have countM32 : w.extractLsb' 32 3 = countM w := rfl
  cases i with
  | gather n b0 b1 b2 | encblk n b0 b1 b2 =>
    obtain ⟨op, rfl, -⟩ := reads
    simp [EmptyGroup, BadSymbolCount, SymbolTopBits, extract_op, op, count32, Instr.wf,
      Instr.illFormed, illFormedGroup]
  | scatter m l0 l1 l2 l3 =>
    obtain ⟨op, rfl, rfl, rfl, rfl, rfl⟩ := reads
    rw [symbolTopBits_iff op]
    simp only [EmptyGroup, BadSymbolCount, extract_op, op, countM32, Instr.wf, Instr.illFormed,
      Option.isNone_iff_eq_none, illFormedSymbols_none_iff, badSymbolCount_values]
    grind
  | padchar =>
    have op : opOf w = 0x2 := reads
    simp [EmptyGroup, BadSymbolCount, SymbolTopBits, extract_op, op, Instr.wf, Instr.illFormed]
  | _ =>
    obtain ⟨op, -⟩ := reads
    simp [EmptyGroup, BadSymbolCount, SymbolTopBits, extract_op, op, Instr.wf, Instr.illFormed]

/-- The words that decode are those without a cause of R55 (a) to (e). -/
theorem decodes_iff (w : Word40) : (∃ i, decode w = .ok i) ↔ ¬ ReservedWord w := by
  rcases readsAs_or_unassigned w with ⟨i, reads⟩ | un
  · have accepted : (∃ j, decode w = .ok j) ↔ (rowOf i).selects w = true ∧ i.wf = true := by
      simp [decode_of_readsAs reads, decodeAs_ok_iff]
    rw [accepted, ReservedWord, operands_reserved_iff reads, mustBeZeroSet_iff reads]
    have assigned := readsAs_not_unassigned reads
    tauto
  · have rejected : ¬ ∃ i, decode w = .ok i := by simp [decode_of_unassigned un]
    exact iff_of_false rejected (not_not_intro (.inl un))

/-- Settles O4: each cause of R55 (a) to (e) is a check of the decoder. -/
theorem wordsThatDecodeAreTheUnreserved : Obligations.WordsThatDecodeAreTheUnreserved := by
  unfold Obligations.WordsThatDecodeAreTheUnreserved
  exact decodes_iff

theorem decode_of_reserved (h : ReservedWord w) : ∃ why, decode w = .error why := by
  cases dec : decode w with
  | error why => exact ⟨why, rfl⟩
  | ok i => exact absurd h ((decodes_iff w).1 ⟨i, dec⟩)

theorem presentCommand_of_error {why : Reserved} (dec : decode w = .error why) (s : State) :
    presentCommand w s = .refused (.reserved why) := by
  simp only [presentCommand, dec]

theorem illFormed_of_wf (wf : i.wf = true) : i.illFormed = none := by
  simpa [Instr.wf] using wf

/-- R55 (f): a command that names too long a message is refused whatever `STATUS` is. -/
theorem exec_too_long (wf : i.wf = true) (long : s.cfg.maxLen < messageLength i) :
    exec i s = .refused .lengthAboveMaxlen := by
  simp [exec_eq_admit, takeCommand, illFormed_of_wf wf, long]

/-- The length of a message command is `CW[31:0]` (R53). -/
theorem messageLength_of_readsAs (reads : ReadsAs w i)
    (op : opOf w ∈ ([0xC, 0xD] : List (BitVec 4))) : messageLength i = (lenOf w).toNat := by
  cases i with
  | encode len | decode len => exact congrArg BitVec.toNat reads.2
  | padchar => simp [show opOf w = 0x2 from reads] at op
  | _ => simp [reads.1] at op

/-- Settles O5: a reserved word does not decode, and a message command checks its length before
`STATUS`. -/
theorem reservedWordsAreRefused : Obligations.ReservedWordsAreRefused := by
  unfold Obligations.ReservedWordsAreRefused
  intro s w rest hh
  rw [step_of_move hh]
  constructor
  · intro reserved
    obtain ⟨why, dec⟩ := decode_of_reserved reserved
    exact ⟨why, presentCommand_of_error dec (s.withHost rest)⟩
  · rintro unreserved ⟨op, long⟩
    obtain ⟨i, dec⟩ := (decodes_iff w).2 unreserved
    obtain ⟨reads, -, wf⟩ := decode_ok_iff.1 dec
    have named : messageLength i = (lenOf w).toNat := messageLength_of_readsAs reads op
    exact (presentCommand_of_decode dec (s.withHost rest)).trans
      (exec_too_long wf (long.trans_eq named.symm))

end Sys2Proof.Machine
end

section
/-! What a command does depends on its present operands alone (spec/30_encoding.md R56, R60), and no
command is taken while `BUSY`: O7, O9 and O31. -/

namespace Sys2Proof.Machine

variable {s : State} {i j : Instr}

/-- Two commands that are admitted alike and have the same effect are the same to the block. -/
theorem exec_congr (ill : i.illFormed = j.illFormed) (len : messageLength i = messageLength j)
    (eff : effectOf i s = effectOf j s) : exec i s = exec j s := by
  simp only [exec_eq_admit, takeCommand, ill, len, eff]

section
variable {n m : Nat} (b0 b1 b2 x1 x2 : Byte) (v0 v1 v2 v3 y2 y3 : Sym)

theorem gather_ignores_third (absent : n ≤ 2) : gather n b0 b1 b2 = gather n b0 b1 x2 := by
  simp only [gather, if_neg (show ¬ 3 ≤ n by omega)]

theorem gather_ignores_second (absent : n ≤ 1) : gather n b0 b1 b2 = gather n b0 x1 b2 := by
  simp only [gather, if_neg (show ¬ 2 ≤ n by omega)]

theorem encodeBlock_ignores_third (absent : n ≤ 2) :
    encodeBlock n b0 b1 b2 = encodeBlock n b0 b1 x2 := by
  simp only [encodeBlock, gather_ignores_third b0 b1 b2 x2 absent]

theorem encodeBlock_ignores_second (absent : n ≤ 1) :
    encodeBlock n b0 b1 b2 = encodeBlock n b0 x1 b2 := by
  simp only [encodeBlock, gather_ignores_second b0 b1 b2 x1 absent]

theorem scatter_ignores_fourth (absent : m ≤ 3) : scatter m v0 v1 v2 v3 = scatter m v0 v1 v2 y3 := by
  simp only [scatter, if_neg (show ¬ 4 ≤ m by omega)]

theorem scatter_ignores_third (absent : m ≤ 2) : scatter m v0 v1 v2 v3 = scatter m v0 v1 y2 v3 := by
  simp only [scatter, if_neg (show ¬ 3 ≤ m by omega)]

end

/-- A `SCATTER` is judged (R55 (d), (e)) and done by the lanes that are present. -/
theorem exec_scatter_congr {m : BitVec 3} {l0 l1 l2 l3 x2 x3 : Byte}
    (present : [l0, l1, l2, l3].take m.toNat = [l0, l1, x2, x3].take m.toNat)
    (same : scatter m.toNat (laneSymbol l0) (laneSymbol l1) (laneSymbol l2) (laneSymbol l3) =
      scatter m.toNat (laneSymbol l0) (laneSymbol l1) (laneSymbol x2) (laneSymbol x3)) :
    exec (.scatter m l0 l1 l2 l3) s = exec (.scatter m l0 l1 x2 x3) s := by
  have ill : illFormedSymbols m l0 l1 l2 l3 = illFormedSymbols m l0 l1 x2 x3 := by
    simp only [illFormedSymbols, present]
  exact exec_congr ill rfl (by simp only [effectOf, same])

/-- Settles O7: the count alone says which lanes are looked at. -/
theorem absentLanesAreIgnored : Obligations.AbsentLanesAreIgnored := by
  unfold Obligations.AbsentLanesAreIgnored
  intro s b0 b1 b2 x1 x2 x3 n m l0 l1 l2 l3
  have third (c1 : Byte) (h : n.toNat ≤ 2) :
      exec (.gather n b0 c1 b2) s = exec (.gather n b0 c1 x2) s ∧
        exec (.encblk n b0 c1 b2) s = exec (.encblk n b0 c1 x2) s :=
    ⟨exec_congr rfl rfl (by simp only [effectOf, gather_ignores_third b0 c1 b2 x2 h]),
      exec_congr rfl rfl (by simp only [effectOf, encodeBlock_ignores_third b0 c1 b2 x2 h])⟩
  have second (h : n.toNat ≤ 1) :
      exec (.gather n b0 b1 b2) s = exec (.gather n b0 x1 b2) s ∧
        exec (.encblk n b0 b1 b2) s = exec (.encblk n b0 x1 b2) s :=
    ⟨exec_congr rfl rfl (by simp only [effectOf, gather_ignores_second b0 b1 b2 x1 h]),
      exec_congr rfl rfl (by simp only [effectOf, encodeBlock_ignores_second b0 b1 b2 x1 h])⟩
  refine ⟨third b1, fun h => ?_, fun h => ?_, fun h => ?_⟩
  · have one : n.toNat = 1 := congrArg BitVec.toNat h
    obtain ⟨gather2, encblk2⟩ := second one.le
    obtain ⟨gather3, encblk3⟩ := third x1 (by omega)
    exact ⟨gather2.trans gather3, encblk2.trans encblk3⟩
  · have present : [l0, l1, l2, l3].take m.toNat = [l0, l1, l2, x3].take m.toNat := by
      interval_cases m.toNat <;> rfl
    exact exec_scatter_congr present (scatter_ignores_fourth _ _ _ _ _ h)
  · have present : [l0, l1, l2, l3].take m.toNat = [l0, l1, x2, x3].take m.toNat := by
      interval_cases m.toNat <;> rfl
    exact exec_scatter_congr present ((scatter_ignores_third _ _ _ _ _ h).trans
      (scatter_ignores_fourth _ _ _ _ _ (by omega)))

/-- What a pure command delivers is a function of the command alone. -/
theorem effectOf_pure (pure : Pure i) : ∃ r, ∀ s, effectOf i s = deliver r s := by
  cases i with
  | encode len | decode len => exact pure.elim
  | _ => exact ⟨_, fun _ => rfl⟩

theorem messageLength_pure (pure : Pure i) : messageLength i = 0 := by
  cases i with
  | encode len | decode len => exact pure.elim
  | _ => rfl

/-- Settles O9: a pure command that is taken delivers its result. -/
theorem pureCommandsReadAndWriteNoState : Obligations.PureCommandsReadAndWriteNoState := by
  unfold Obligations.PureCommandsReadAndWriteNoState
  intro i pure wf
  obtain ⟨r, eff⟩ := effectOf_pure pure
  refine ⟨r, fun s free => ?_⟩
  have fits : messageLength i ≤ s.cfg.maxLen := by simp [messageLength_pure pure]
  rw [exec_of wf fits free, eff]
  rfl

/-- An admitted command presented while `BUSY` is refused (R145 (a)). -/
theorem exec_busy (wf : i.wf = true) (fits : messageLength i ≤ s.cfg.maxLen)
    (busy : s.status = .busy) : exec i s = .refused .commandWhileBusy := by
  simp [exec_eq_admit, takeCommand, illFormed_of_wf wf, Nat.not_lt.2 fits, busy]

/-- Settles O31: an admitted command, `HWR` and `HRD` all check `STATUS`. -/
theorem busyBlockRefusesTheHost : Obligations.BusyBlockRefusesTheHost := by
  unfold Obligations.BusyBlockRefusesTheHost
  intro s busy
  refine ⟨fun i wf fits => exec_busy wf fits busy, fun i b rest hh => ?_, fun i rest hh => ?_⟩
  · rw [step_of_move hh]
    exact if_pos busy
  · rw [step_of_move hh]
    exact if_pos busy

end Sys2Proof.Machine
end

section
/-! Written programs (spec/30_encoding.md R58, R59): O57 and O58. -/

namespace Sys2Proof.Machine

theorem commandMoves_present {i : Instr} (wf : i.wf = true) :
    ∃ w, commandMoves (some i) = some [.present w] ∧ decode w = .ok i :=
  ⟨encode i, rfl, decode_encode wf⟩

theorem groupCommand_of {bs : List Byte} (h1 : 1 ≤ bs.length) (h3 : bs.length ≤ 3)
    (mk : BitVec 2 → Byte → Byte → Byte → Instr) : groupCommand bs mk =
      some (mk (BitVec.ofNat 2 bs.length) (byteLane bs 0) (byteLane bs 1) (byteLane bs 2)) :=
  if_pos ⟨h1, h3⟩

theorem groupCommand_none {bs : List Byte} (h : bs.length = 0 ∨ 3 < bs.length)
    (mk : BitVec 2 → Byte → Byte → Byte → Instr) : groupCommand bs mk = none :=
  if_neg (by omega)

theorem symbolCommand_of {vs : List Sym} (h2 : 2 ≤ vs.length) (h4 : vs.length ≤ 4) :
    symbolCommand vs = some (.scatter (BitVec.ofNat 3 vs.length) ((symLane vs 0).setWidth 8)
      ((symLane vs 1).setWidth 8) ((symLane vs 2).setWidth 8) ((symLane vs 3).setWidth 8)) :=
  if_pos ⟨h2, h4⟩

theorem symbolCommand_none {vs : List Sym} (h : vs.length < 2 ∨ 4 < vs.length) :
    symbolCommand vs = none :=
  if_neg (by omega)

theorem group_wf {k : Nat} (h1 : 1 ≤ k) (h3 : k ≤ 3) (b0 b1 b2 : Byte) :
    (Instr.gather (BitVec.ofNat 2 k) b0 b1 b2).wf = true ∧
      (Instr.encblk (BitVec.ofNat 2 k) b0 b1 b2).wf = true := by
  interval_cases k <;> exact ⟨rfl, rfl⟩

theorem symbol_top_bits (v : Sym) : (v.setWidth 8).extractLsb' 6 2 = 0 := by
  refine BitVec.eq_of_getLsbD_eq fun b hb => ?_
  interval_cases b <;> simp

/-- The operands of a `SCATTER` line are 6 bits wide, so that no lane has a top bit set (R58). -/
theorem scatter_wf {k : Nat} (h2 : 2 ≤ k) (h4 : k ≤ 4) (v0 v1 v2 v3 : Sym) :
    (Instr.scatter (BitVec.ofNat 3 k) (v0.setWidth 8) (v1.setWidth 8) (v2.setWidth 8)
      (v3.setWidth 8)).wf = true := by
  have count : (BitVec.ofNat 3 k).toNat = k := by simp only [BitVec.toNat_ofNat]; omega
  have lanes : ∀ l ∈ [v0.setWidth 8, v1.setWidth 8, v2.setWidth 8, v3.setWidth 8],
      BitVec.extractLsb' 6 2 l = 0 := by
    simp [symbol_top_bits, -BitVec.ofNat_eq_ofNat]
  have legal : illFormedSymbols (BitVec.ofNat 3 k) (v0.setWidth 8) (v1.setWidth 8) (v2.setWidth 8)
      (v3.setWidth 8) = none :=
    illFormedSymbols_none_iff.2 ⟨by omega, fun l mem => lanes l (List.mem_of_mem_take mem)⟩
  simp only [Instr.wf, Instr.illFormed, legal, Option.isNone_none]

/-- The operands of a `SCATTER` line, then 0 in the absent lanes. -/
theorem symLanes_eq {vs : List Sym} (h2 : 2 ≤ vs.length) (h4 : vs.length ≤ 4) :
    [((symLane vs 0).setWidth 8).toNat, ((symLane vs 1).setWidth 8).toNat,
      ((symLane vs 2).setWidth 8).toNat, ((symLane vs 3).setWidth 8).toNat] =
    vs.map BitVec.toNat ++ List.replicate (4 - vs.length) 0 := by
  match vs, h2, h4 with
  | [a, b], _, _ | [a, b, c], _, _ | [a, b, c, d], _, _ => simp [symLane, List.replicate]; omega

/-- Settles O57: the command of each line is well formed, so that its word decodes to it. -/
theorem commandLinesPresentTheirCommand : Obligations.CommandLinesPresentTheirCommand := by
  unfold Obligations.CommandLinesPresentTheirCommand
  refine ⟨fun bs h1 h3 => ?_, fun bs h => ?_, fun vs h2 h4 => ?_, fun vs h => ?_, fun l i line => ?_⟩
  · obtain ⟨gatherWf, encblkWf⟩ := group_wf h1 h3 (bs.getD 0 0) (bs.getD 1 0) (bs.getD 2 0)
    obtain ⟨w, moves, dec⟩ := commandMoves_present gatherWf
    obtain ⟨w', moves', dec'⟩ := commandMoves_present encblkWf
    refine ⟨w, w', ?_, dec, ?_, dec'⟩
    · rw [Line.moves, groupCommand_of h1 h3]
      exact moves
    · rw [Line.moves, groupCommand_of h1 h3]
      exact moves'
  · simp [Line.moves, groupCommand_none h, commandMoves]
  · obtain ⟨w, moves, dec⟩ := commandMoves_present (scatter_wf h2 h4 (symLane vs 0) (symLane vs 1)
      (symLane vs 2) (symLane vs 3))
    exact ⟨w, _, _, _, _, by rw [Line.moves, symbolCommand_of h2 h4, moves], dec, symLanes_eq h2 h4⟩
  · simp [Line.moves, symbolCommand_none h, commandMoves]
  · rcases line with mem | ⟨_, rfl, rfl⟩ | ⟨_, rfl, rfl⟩ | ⟨_, _, _, _, rfl, rfl⟩ |
      ⟨_, _, _, _, rfl, rfl⟩ | ⟨_, rfl, rfl⟩ | ⟨_, rfl, rfl⟩
    · cases mem with
      | head => exact commandMoves_present rfl
      | tail _ h => cases h
    all_goals exact commandMoves_present rfl

/-- The state after a host that only loads `bs` from cell `a` on has made its moves. -/
def afterLoad (s : State) (a : Nat) (bs : List Byte) : State :=
  { s with host := [], ibuf := s.ibuf.writeMany a bs, reply := if bs = [] then s.reply else none }

theorem afterLoad_cons (s : State) (a : Nat) (b : Byte) (bs : List Byte) :
    afterLoad (afterLoad s a [b]) (a + 1) bs = afterLoad s a (b :: bs) := by
  simp [afterLoad, Memory.writeMany]

theorem steps_succ {s t : State} (k : Nat) (first : step s = .next t) :
    steps (k + 1) s = steps k t := by
  have coreStep : Sys2Proof.core.step s = .next t := first
  simp only [steps, Host.Core.run]
  rw [coreStep]

/-- The moves of `HLOAD` are taken one by one, each the write of one cell. -/
theorem steps_loadMoves {s : State} {a : Nat} {bs : List Byte} (free : s.status ≠ .busy)
    (fits : a + bs.length ≤ s.cfg.maxLen) :
    steps bs.length (s.withHost (loadMoves a bs)) = .next (afterLoad s a bs) := by
  induction bs generalizing s a with
  | nil => rfl
  | cons b bs ih =>
    rw [List.length_cons] at fits ⊢
    have first : step (s.withHost (loadMoves a (b :: bs))) =
        .next ((afterLoad s a [b]).withHost (loadMoves (a + 1) bs)) :=
      (step_of_move rfl).trans
        (hostWrite_inside (s := s.withHost (loadMoves (a + 1) bs)) free
          (show a < s.cfg.maxLen by omega) b)
    have rest : a + 1 + bs.length ≤ (afterLoad s a [b]).cfg.maxLen :=
      show a + 1 + bs.length ≤ s.cfg.maxLen by omega
    rw [steps_succ _ first, ih (s := afterLoad s a [b]) free rest, afterLoad_cons]

/-- Settles O58: the moves are the writes of `Memory.writeMany`, whose laws give each cell. -/
theorem hloadLoadsTheMessage : Obligations.HloadLoadsTheMessage := by
  unfold Obligations.HloadLoadsTheMessage
  intro s bs free fits
  refine ⟨loadMoves 0 bs, afterLoad s 0 bs, rfl, steps_loadMoves free (by omega), ?_, ?_, rfl⟩
  · exact readMany_iff.2 ⟨rfl, fun k hk => read_writeMany_inside s.ibuf 0 bs hk⟩
  · intro a ha
    exact read_writeMany_outside s.ibuf 0 bs (.inr (by omega))

end Sys2Proof.Machine
end

section
/-! The words of the spec's examples and the layout of the result word (spec/30_encoding.md R51, R53,
R62): O1 and O8. -/

namespace Sys2Proof.Machine

/-- Settles O1, by decoding the nine words. -/
theorem tableWordsDecodeToTheirCommands : Obligations.TableWordsDecodeToTheirCommands := by
  unfold Obligations.TableWordsDecodeToTheirCommands
  decide

theorem ok_false_iff (r : Result) : r.ok = false ↔ r = .fail := by
  cases r <;> simp [Result.ok]

/-- `RW[39:37]` is 0 (R51). -/
theorem word_top_bits (r : Result) : r.word.extractLsb' 37 3 = 0 := by
  refine BitVec.eq_of_getLsbD_eq fun k hk => ?_
  simp only [Result.word, BitVec.getLsbD_extractLsb', BitVec.getLsbD_append]
  interval_cases k <;> simp

/-- `RW[36]` is the `ok` bit (R19, R51). -/
theorem word_ok_bit (r : Result) : r.word.getLsbD 36 = r.ok := by
  simp only [Result.word, BitVec.getLsbD_append]
  cases r.ok <;> rfl

/-- Settles O8: the layout of each kind of success is compared bit by bit. -/
theorem resultWordLayout : Obligations.ResultWordLayout := by
  unfold Obligations.ResultWordLayout
  refine ⟨fun r => ⟨word_top_bits r, ?_⟩, rfl, ?_, ?_, ?_, ?_, ?_, ?_, ?_, ?_, ?_, ?_⟩
  · rw [word_ok_bit, ok_false_iff]
  all_goals
    intros
    refine BitVec.eq_of_getLsbD_eq fun k hk => ?_
    simp only [Result.word, Result.payload, Result.raux, Result.ok, lanePayload, byteLane,
      BitVec.getLsbD_append]
    interval_cases k <;> simp

end Sys2Proof.Machine
end

section
/-! SYMTAB (spec/40_symbol_table.md): the arms of R71 and R72 on natural numbers (R75), the table of
R70 and its laws (R74): O10 to O14. -/

namespace Sys2Proof.Machine

/-- A pure command that is taken has its effect whatever the parameter is: it names no message. -/
theorem exec_of_pure {i : Instr} {s : State} (pure : Pure i) (wf : i.wf = true)
    (free : s.status ≠ .busy) : exec i s = .next (effectOf i s) :=
  exec_of wf (by simp [messageLength_pure pure]) free

theorem decode_charforWord (v8 : Byte) : decode (0x00000000#32 ++ v8) = .ok (.charfor v8) :=
  decode_encode (i := .charfor v8) rfl

theorem decode_valueforWord (c : Byte) : decode (0x10000000#32 ++ c) = .ok (.valuefor c) :=
  decode_encode (i := .valuefor c) rfl

/-! ## `char_for` (R71) -/

section
variable {v8 : Byte}

theorem charFor_above (above : 63 < v8.toNat) : charFor v8 = none :=
  if_pos above

theorem charFor_upper (le : v8.toNat ≤ 25) : charFor v8 = some (BitVec.ofNat 8 (v8.toNat + 65)) := by
  have arm : symbolChar v8 = v8 + 65 := if_pos le
  rw [charFor, if_neg (by bv_omega), arm]
  exact congrArg some (by bv_omega)

theorem charFor_lower (gt : 25 < v8.toNat) (le : v8.toNat ≤ 51) :
    charFor v8 = some (BitVec.ofNat 8 (v8.toNat + 71)) := by
  have arm : symbolChar v8 = v8 + 71 := by
    rw [symbolChar, if_neg (by bv_omega), if_pos (by bv_omega)]
  rw [charFor, if_neg (by bv_omega), arm]
  exact congrArg some (by bv_omega)

theorem charFor_digit (gt : 51 < v8.toNat) (le : v8.toNat ≤ 61) :
    charFor v8 = some (BitVec.ofNat 8 (v8.toNat - 4)) := by
  have arm : symbolChar v8 = v8 - 4 := by
    rw [symbolChar, if_neg (by bv_omega), if_neg (by bv_omega), if_pos (by bv_omega)]
  rw [charFor, if_neg (by bv_omega), arm]
  exact congrArg some (by bv_omega)

theorem charforResult_of_some {ch : Byte} (h : charFor v8 = some ch) :
    charforResult v8 = .char ch := by
  rw [charforResult, h]

theorem charforResult_of_none (h : charFor v8 = none) : charforResult v8 = .fail := by
  rw [charforResult, h]

end

/-- Settles O10: each arm of R71 gives the character that is delivered (`charforResult` is
the model's function). -/
theorem charforResultOnEveryOperand : Obligations.CharforResult := by
  unfold Obligations.CharforResult
  intro v8
  refine ⟨decode_charforWord v8, charforResult v8,
    fun s free => exec_of_pure (i := .charfor v8) trivial rfl free,
    fun above => charforResult_of_none (charFor_above above),
    fun le => charforResult_of_some (charFor_upper le),
    fun gt le => charforResult_of_some (charFor_lower gt le),
    fun gt le => charforResult_of_some (charFor_digit gt le), ?_, ?_, ok_false_iff _⟩
  · rintro rfl
    rfl
  · rintro rfl
    rfl

/-! ## `value_for` (R72) -/

section
variable {c : Byte}

theorem valueFor_upper (ge : 0x41 ≤ c.toNat) (le : c.toNat ≤ 0x5A) :
    valueFor c = some (BitVec.ofNat 6 (c.toNat - 65)) := by
  rw [valueFor, if_pos ⟨ge, le⟩]
  exact congrArg some (by bv_omega)

theorem valueFor_lower (ge : 0x61 ≤ c.toNat) (le : c.toNat ≤ 0x7A) :
    valueFor c = some (BitVec.ofNat 6 (c.toNat - 71)) := by
  rw [valueFor, if_neg (by bv_omega), if_pos ⟨ge, le⟩]
  exact congrArg some (by bv_omega)

theorem valueFor_digit (ge : 0x30 ≤ c.toNat) (le : c.toNat ≤ 0x39) :
    valueFor c = some (BitVec.ofNat 6 (c.toNat + 4)) := by
  rw [valueFor, if_neg (by bv_omega), if_neg (by bv_omega), if_pos ⟨ge, le⟩]
  exact congrArg some (by bv_omega)

theorem valueFor_outside (upper : ¬ (0x41 ≤ c.toNat ∧ c.toNat ≤ 0x5A))
    (lower : ¬ (0x61 ≤ c.toNat ∧ c.toNat ≤ 0x7A)) (digit : ¬ (0x30 ≤ c.toNat ∧ c.toNat ≤ 0x39))
    (plus : c ≠ 0x2B) (slash : c ≠ 0x2F) : valueFor c = none :=
  (if_neg upper).trans <| (if_neg lower).trans <| (if_neg digit).trans <|
    (if_neg plus).trans (if_neg slash)

theorem valueforResult_of_some {v : Sym} (h : valueFor c = some v) :
    valueforResult c = .value v := by
  rw [valueforResult, h]

theorem valueforResult_of_none (h : valueFor c = none) : valueforResult c = .fail := by
  rw [valueforResult, h]

end

/-- Settles O11: each of the five ranges of R72 gives its value, and there is none outside them
(`valueforResult` is the model's function). -/
theorem valueforResultOnEveryOperand : Obligations.ValueforResult := by
  unfold Obligations.ValueforResult
  intro c
  refine ⟨decode_valueforWord c, valueforResult c,
    fun s free => exec_of_pure (i := .valuefor c) trivial rfl free,
    fun ge le => valueforResult_of_some (valueFor_upper ge le),
    fun ge le => valueforResult_of_some (valueFor_lower ge le),
    fun ge le => valueforResult_of_some (valueFor_digit ge le), ?_, ?_,
    fun upper lower digit plus slash =>
      valueforResult_of_none (valueFor_outside upper lower digit plus slash), ok_false_iff _⟩
  · rintro rfl
    rfl
  · rintro rfl
    rfl

/-- Settles O12: the word is that of the command, which is pure. -/
theorem padcharResult : Obligations.PadcharResult := by
  unfold Obligations.PadcharResult
  exact ⟨decode_encode (i := .padchar) rfl, rfl,
    fun s free => exec_of_pure (i := .padchar) trivial rfl free⟩

/-! ## The table and its laws (R70, R74) -/

theorem charFor_setWidth : ∀ v : Sym, charFor (v.setWidth 8) = some (alphabetChar v) := by decide

theorem valueFor_alphabetChar : ∀ v : Sym, valueFor (alphabetChar v) = some v := by decide

/-- Settles O13, by comparing the 64 entries of the table. -/
theorem symbolTableIsTheAlphabet : Obligations.SymbolTableIsTheAlphabet := by
  unfold Obligations.SymbolTableIsTheAlphabet
  exact ⟨rfl, fun v => ⟨charFor_setWidth v, valueFor_alphabetChar v⟩⟩

/-- `char_for` undoes `value_for`: in each range the two offsets cancel. -/
theorem charFor_of_valueFor {c : Byte} {v : Sym} (h : valueFor c = some v) :
    charFor (v.setWidth 8) = some c := by
  by_cases upper : 0x41 ≤ c.toNat ∧ c.toNat ≤ 0x5A
  · rw [valueFor_upper upper.1 upper.2] at h
    cases h
    exact (charFor_upper (by bv_omega)).trans (congrArg some (by bv_omega))
  by_cases lower : 0x61 ≤ c.toNat ∧ c.toNat ≤ 0x7A
  · rw [valueFor_lower lower.1 lower.2] at h
    cases h
    exact (charFor_lower (by bv_omega) (by bv_omega)).trans (congrArg some (by bv_omega))
  by_cases digit : 0x30 ≤ c.toNat ∧ c.toNat ≤ 0x39
  · rw [valueFor_digit digit.1 digit.2] at h
    cases h
    exact (charFor_digit (by bv_omega) (by bv_omega)).trans (congrArg some (by bv_omega))
  by_cases plus : c = 0x2B
  · subst plus
    cases h
    rfl
  by_cases slash : c = 0x2F
  · subst slash
    cases h
    rfl
  rw [valueFor_outside upper lower digit plus slash] at h
  cases h

/-- The codes that have a value are those of the alphabet, each with its own value. -/
theorem valueFor_eq_some_iff {c : Byte} {v : Sym} : valueFor c = some v ↔ c = alphabetChar v := by
  constructor
  · intro h
    simpa [charFor_setWidth] using (charFor_of_valueFor h).symm
  · rintro rfl
    exact valueFor_alphabetChar v

/-- `value_for` undoes `char_for`, on operands of 8 bits. -/
theorem valueFor_of_charFor {v8 c : Byte} (h : charFor v8 = some c) :
    valueFor c = some (v8.setWidth 6) := by
  by_cases above : 63 < v8.toNat
  · rw [charFor_above above] at h
    cases h
  · have wide : (v8.setWidth 6).setWidth 8 = v8 := by bv_omega
    rw [← wide, charFor_setWidth] at h
    cases h
    exact valueFor_alphabetChar _

theorem valueFor_pad : valueFor PAD = none := rfl

/-- Settles O14: the two maps undo each other, and a character of the table has a value, which the
padding character has not. -/
theorem symbolTableIsABijection : Obligations.SymbolTableIsABijection := by
  unfold Obligations.SymbolTableIsABijection
  refine ⟨fun v => ?_, fun c v => charFor_of_valueFor, valueFor_pad, fun v8 h => ?_⟩
  · rw [charFor_setWidth, Option.bind_some, valueFor_alphabetChar]
  · have value := valueFor_of_charFor h
    rw [valueFor_pad] at value
    cases value

end Sys2Proof.Machine
end

section
/-! REPACK (spec/41_repacker.md): what `GATHER` and `SCATTER` deliver, by the formulas on natural
numbers (R80, R83), and what each gives of the other's result (R85, R86): O15, O16, O18 and O19. -/

namespace Sys2Proof.Machine

/-! ## The shift formulas on natural numbers (R80, R83) -/

section
variable (b0 b1 b2 : Byte)

/-- No shift of `GATHER` loses a bit: each formula stays below 64 (R82). -/
theorem sixBitFields_toNat :
    (sixBitFields (b0 ++ b1 ++ b2)).map BitVec.toNat =
      [b0.toNat >>> 2, (b0.toNat &&& 0x03) <<< 4 ||| b1.toNat >>> 4,
        (b1.toNat &&& 0x0F) <<< 2 ||| b2.toNat >>> 6, b2.toNat &&& 0x3F] := by
  have low0 : b0.toNat &&& 0x03 ≤ 0x03 := Nat.and_le_right
  have low1 : b1.toNat &&& 0x0F ≤ 0x0F := Nat.and_le_right
  have low2 : b2.toNat &&& 0x3F ≤ 0x3F := Nat.and_le_right
  have field1 : (b0.toNat &&& 0x03) <<< 4 ||| b1.toNat >>> 4 < 2 ^ 6 :=
    Nat.or_lt_two_pow (by omega) (by omega)
  have field2 : (b1.toNat &&& 0x0F) <<< 2 ||| b2.toNat >>> 6 < 2 ^ 6 :=
    Nat.or_lt_two_pow (by omega) (by omega)
  rw [sixBitFields_append]
  simp (disch := omega) only [List.map_cons, List.map_nil, BitVec.toNat_setWidth, BitVec.toNat_or,
    BitVec.toNat_and, BitVec.toNat_shiftLeft, BitVec.toNat_ushiftRight,
    BitVec.reduceToNat, Nat.mod_eq_of_lt]

end

section
variable (v0 v1 v2 v3 : Sym)

/-- The shifts of `SCATTER` are exact in 16 bits, so that `trunc_8` alone cuts (R87). -/
theorem groupBytes_toNat :
    (groupBytes (v0 ++ v1 ++ v2 ++ v3)).map BitVec.toNat =
      [(v0.toNat <<< 2 ||| v1.toNat >>> 4) % 256, (v1.toNat <<< 4 ||| v2.toNat >>> 2) % 256,
        (v2.toNat <<< 6 ||| v3.toNat) % 256] := by
  rw [groupBytes_append]
  simp (disch := omega) only [trunc8, List.map_cons, List.map_nil, BitVec.toNat_setWidth,
    BitVec.toNat_or, BitVec.toNat_shiftLeft, BitVec.toNat_ushiftRight, Nat.mod_eq_of_lt]

end

/-! ## The words, and what is delivered (R53, R80, R83) -/

theorem append_countN (op : BitVec 4) (n : BitVec 2) : op ++ 0#2 ++ n = op ++ n.setWidth 4 := by
  decide +revert

theorem append_countM (op : BitVec 4) (m : BitVec 3) : op ++ 0#1 ++ m = op ++ m.setWidth 4 := by
  decide +revert

theorem gather_wf_of_count {n : BitVec 2} (present : n ≠ 0) (b0 b1 b2 : Byte) :
    (Instr.gather n b0 b1 b2).wf = true := by
  rw [Instr.wf, Instr.illFormed, illFormedGroup, if_neg present, Option.isNone_none]

theorem decode_gatherWord {n : BitVec 2} (present : n ≠ 0) (b0 b1 b2 : Byte) :
    decode (0x4#4 ++ 0#2 ++ n ++ b0 ++ b1 ++ b2 ++ 0#8) = .ok (.gather n b0 b1 b2) := by
  have word : 0x4#4 ++ 0#2 ++ n ++ b0 ++ b1 ++ b2 ++ 0#8 = encode (.gather n b0 b1 b2) :=
    congrArg (· ++ b0 ++ b1 ++ b2 ++ 0#8) (append_countN 0x4 n)
  rw [word, decode_encode (gather_wf_of_count present b0 b1 b2)]

theorem decode_scatterWord {m : BitVec 3} {l0 l1 l2 l3 : Byte}
    (wf : (Instr.scatter m l0 l1 l2 l3).wf = true) :
    decode (0x5#4 ++ 0#1 ++ m ++ l0 ++ l1 ++ l2 ++ l3) = .ok (.scatter m l0 l1 l2 l3) := by
  have word : 0x5#4 ++ 0#1 ++ m ++ l0 ++ l1 ++ l2 ++ l3 = encode (.scatter m l0 l1 l2 l3) :=
    congrArg (· ++ l0 ++ l1 ++ l2 ++ l3) (append_countM 0x5 m)
  rw [word, decode_encode wf]

/-- Settles O15: the fields are the slices of the group of the present bytes, and their values are
those of the formulas. -/
theorem gatherResult : Obligations.GatherResult := by
  unfold Obligations.GatherResult
  intro s n b0 b1 b2 present free
  have wf := gather_wf_of_count present b0 b1 b2
  refine ⟨decode_gatherWord present b0 b1 b2, gather n.toNat b0 b1 b2,
    exec_of_pure (i := .gather n b0 b1 b2) trivial wf free, rfl, ?_⟩
  rw [gather_eq_slices, byteGroup, List.map_take, sixBitFields_toNat]
  simp only [apply_ite BitVec.toNat, BitVec.toNat_ofNat, Nat.zero_mod]

/-- Settles O16: the bytes are the slices of the group of the present values, and their values are
those of the formulas cut to 8 bits. -/
theorem scatterResult : Obligations.ScatterResult := by
  unfold Obligations.ScatterResult
  intro s m l0 l1 l2 l3 wf free
  refine ⟨decode_scatterWord wf, scatter m.toNat (laneSymbol l0) (laneSymbol l1) (laneSymbol l2)
    (laneSymbol l3), exec_of_pure (i := .scatter m l0 l1 l2 l3) trivial wf free, rfl, ?_⟩
  rw [scatter_eq_slices, List.map_take, groupBytes_toNat]
  simp only [laneSymbol, apply_ite BitVec.toNat, BitVec.toNat_setWidth, BitVec.toNat_ofNat,
    Nat.zero_mod, Nat.reducePow]

/-! ## Each undoes the other (R85, R86) -/

/-- The four 6-bit slices of a group make up the group. -/
theorem group_of_fields (g : BitVec 24) :
    g.extractLsb' 18 6 ++ g.extractLsb' 12 6 ++ g.extractLsb' 6 6 ++ g.extractLsb' 0 6 = g := by
  refine BitVec.eq_of_getLsbD_eq fun k hk => ?_
  simp only [BitVec.getLsbD_extractLsb', BitVec.getLsbD_append]
  interval_cases k <;> rfl

/-- The three byte slices of a group make up the group. -/
theorem group_of_bytes (g : BitVec 24) :
    g.extractLsb' 16 8 ++ g.extractLsb' 8 8 ++ g.extractLsb' 0 8 = g := by
  refine BitVec.eq_of_getLsbD_eq fun k hk => ?_
  simp only [BitVec.getLsbD_extractLsb', BitVec.getLsbD_append]
  interval_cases k <;> rfl

/-- A group of four values has them as its slices. -/
theorem sixBitFields_symbols (v0 v1 v2 v3 : Sym) :
    sixBitFields (v0 ++ v1 ++ v2 ++ v3) = [v0, v1, v2, v3] := by
  obtain ⟨h012, h3⟩ := append_eq_append_iff.1 (group_of_fields (v0 ++ v1 ++ v2 ++ v3))
  obtain ⟨h01, h2⟩ := append_eq_append_iff.1 h012
  obtain ⟨h0, h1⟩ := append_eq_append_iff.1 h01
  rw [sixBitFields, h0, h1, h2, h3]

/-- A group of three bytes has them as its slices. -/
theorem groupBytes_bytes (b0 b1 b2 : Byte) : groupBytes (b0 ++ b1 ++ b2) = [b0, b1, b2] := by
  obtain ⟨h01, h2⟩ := append_eq_append_iff.1 (group_of_bytes (b0 ++ b1 ++ b2))
  obtain ⟨h0, h1⟩ := append_eq_append_iff.1 h01
  rw [groupBytes, h0, h1, h2]

/-- `SCATTER` of a list of values slices their group: the values that are not there are 0 (R84). -/
theorem scatter_list {vs : List Sym} (h2 : 2 ≤ vs.length) (h4 : vs.length ≤ 4) :
    scatter vs.length (vs.getD 0 0) (vs.getD 1 0) (vs.getD 2 0) (vs.getD 3 0) =
      (groupBytes (symbolGroup vs)).take (vs.length - 1) := by
  match vs, h2, h4 with
  | [_, _], _, _ | [_, _, _], _, _ | [_, _, _, _], _, _ => exact scatter_eq_slices _ _ _ _ _

/-- The fields that are present hold all bits of the group: the others are 0 (R81). -/
theorem symbolGroup_gather {n : Nat} (h1 : 1 ≤ n) (h3 : n ≤ 3) (b0 b1 b2 : Byte) :
    symbolGroup (gather n b0 b1 b2) = byteGroup n b0 b1 b2 := by
  rw [gather_eq_slices]
  refine BitVec.eq_of_getLsbD_eq fun k hk => ?_
  interval_cases n
  all_goals
    simp only [symbolGroup, sixBitFields, byteGroup, List.take_succ_cons, List.take_zero,
      List.getD_cons_zero, List.getD_cons_succ, List.getD_nil, BitVec.getLsbD_append,
      BitVec.getLsbD_extractLsb']
    interval_cases k <;> simp

/-- Settles O18: the bytes are the slices of the group of the fields, which is the group of the
bytes. -/
theorem scatterUndoesGather : Obligations.ScatterUndoesGather := by
  unfold Obligations.ScatterUndoesGather
  intro n b0 b1 b2 h1 h3
  have len := gather_length b0 b1 b2 h3
  have bytes : (groupBytes (byteGroup n b0 b1 b2)).take n = [b0, b1, b2].take n := by
    rw [byteGroup, groupBytes_bytes]
    interval_cases n <;> rfl
  have slices := scatter_list (vs := gather n b0 b1 b2) (by omega) (by omega)
  rw [len, symbolGroup_gather h1 h3, Nat.add_sub_cancel, bytes] at slices
  exact ⟨len, slices⟩

/-- Leaving bytes out of a group masks it. -/
theorem byteGroup_eq_and (n : Nat) (b0 b1 b2 : Byte) :
    byteGroup n b0 b1 b2 = (b0 ++ b1 ++ b2) &&& byteGroup n 0xFF 0xFF 0xFF := by
  unfold byteGroup
  rw [BitVec.and_append, BitVec.and_append]
  split_ifs <;> simp

/-- Gathering the bytes of a group gives the fields of the group without the bits of the bytes that
are left out. -/
theorem gather_groupBytes (n : Nat) (g : BitVec 24) :
    gather n (g.extractLsb' 16 8) (g.extractLsb' 8 8) (g.extractLsb' 0 8) =
      (sixBitFields (g &&& byteGroup n 0xFF 0xFF 0xFF)).take (n + 1) := by
  rw [gather_eq_slices, byteGroup_eq_and, group_of_bytes]

/-- A mask acts on each value of a group. -/
theorem sixBitFields_and (v0 v1 v2 v3 m0 m1 m2 m3 : Sym) :
    sixBitFields ((v0 ++ v1 ++ v2 ++ v3) &&& (m0 ++ m1 ++ m2 ++ m3)) =
      [v0 &&& m0, v1 &&& m1, v2 &&& m2, v3 &&& m3] := by
  rw [BitVec.and_append, BitVec.and_append, BitVec.and_append, sixBitFields_symbols]

@[simp] theorem and_allOnes_symbol (v : Sym) : v &&& 0x3F#6 = v := BitVec.and_allOnes

/-- The masks of the groups of 3, 2 and 1 bytes, value by value: the low bits of the last value that
is present are lost with the bytes that are left out (R86). -/
theorem byteGroup_masks :
    byteGroup 3 0xFF 0xFF 0xFF = 0x3F#6 ++ 0x3F#6 ++ 0x3F#6 ++ 0x3F#6 ∧
    byteGroup 2 0xFF 0xFF 0xFF = 0x3F#6 ++ 0x3F#6 ++ 0x3C#6 ++ 0x00#6 ∧
    byteGroup 1 0xFF 0xFF 0xFF = 0x3F#6 ++ 0x30#6 ++ 0x00#6 ++ 0x00#6 := by decide

/-- Settles O19: the bytes that a short group has not are a mask on the group of the values. -/
theorem gatherAfterScatter : Obligations.GatherAfterScatter := by
  unfold Obligations.GatherAfterScatter
  intro v0 v1 v2 v3
  obtain ⟨mask3, mask2, mask1⟩ := byteGroup_masks
  refine ⟨⟨scatter_length v0 v1 v2 v3 (by decide), ?_⟩,
    ⟨scatter_length v0 v1 v2 v3 (by decide), ?_⟩, ⟨scatter_length v0 v1 v2 v3 (by decide), ?_⟩⟩
  · have fields := gather_groupBytes 3 (v0 ++ v1 ++ v2 ++ v3)
    rw [mask3, sixBitFields_and] at fields
    rw [scatter_eq_slices]
    exact fields.trans (by simp)
  · have fields := gather_groupBytes 2 (v0 ++ v1 ++ v2 ++ 0#6)
    rw [mask2, sixBitFields_and, gather_ignores_third _ _ _ 0 (by decide)] at fields
    rw [scatter_eq_slices]
    exact fields.trans (by simp)
  · have fields := gather_groupBytes 1 (v0 ++ v1 ++ 0#6 ++ 0#6)
    rw [mask1, sixBitFields_and, gather_ignores_third _ _ _ 0 (by decide),
      gather_ignores_second _ _ 0 _ (by decide)] at fields
    rw [scatter_eq_slices]
    exact fields.trans (by simp)

end Sys2Proof.Machine
end

section
/-! What a block of ENCDP is, slot by slot (spec/42_encoder.md R90, R91): O20. -/

namespace Sys2Proof.Machine

/-- On the 64 values the symbol map is the table of R70. -/
theorem symbolChar_setWidth (v : Sym) : symbolChar (v.setWidth 8) = alphabetChar v := by
  have inside : ¬ 63 < v.setWidth 8 := by bv_omega
  have table := charFor_setWidth v
  rw [charFor, if_neg inside] at table
  exact Option.some.inj table

theorem alphabetChar_mem (v : Sym) : alphabetChar v ∈ alphabet := by
  rw [alphabetChar, List.getD_eq_getElem _ _ (show v.toNat < alphabet.length from v.isLt)]
  exact List.getElem_mem _

theorem alphabetChar_ne_pad (v : Sym) : alphabetChar v ≠ PAD := by
  intro h
  have value := valueFor_alphabetChar v
  rw [h, valueFor_pad] at value
  cases value

section
variable {n : Nat} (b0 b1 b2 : Byte)

/-- The characters of a block: those of the slices that are present, then the padding. -/
theorem encodeBlock_eq_slices (h3 : n ≤ 3) :
    encodeBlock n b0 b1 b2 =
      ((sixBitFields (byteGroup n b0 b1 b2)).take (n + 1)).map alphabetChar ++
        List.replicate (3 - n) PAD := by
  have slots : 4 - (n + 1) = 3 - n := by omega
  simp only [encodeBlock, symbolChar_setWidth, gather_length b0 b1 b2 h3, slots,
    ← gather_eq_slices]

/-- Slot `i` of a block holds the character of slice `i`, or the padding where the slice is absent;
the place alone decides (R91). -/
theorem encodeBlock_slot (h3 : n ≤ 3) {i : Nat} (hi : i < 4) :
    (encodeBlock n b0 b1 b2)[i]? =
      if i < n + 1 then ((sixBitFields (byteGroup n b0 b1 b2))[i]?).map alphabetChar
      else some PAD := by
  have len : (((sixBitFields (byteGroup n b0 b1 b2)).take (n + 1)).map alphabetChar).length =
      n + 1 := by
    rw [← gather_eq_slices, List.length_map, gather_length b0 b1 b2 h3]
  rw [encodeBlock_eq_slices b0 b1 b2 h3]
  split
  · next present =>
    rw [List.getElem?_append_left (by omega), List.getElem?_map, List.getElem?_take_of_lt present]
  · next absent =>
    rw [List.getElem?_append_right (by omega), List.getElem?_replicate, if_pos (by omega)]

/-- A block is padded exactly behind its `n + 1` fields. -/
theorem encodeBlock_pad_iff (h3 : n ≤ 3) {i : Nat} (hi : i < 4) :
    (encodeBlock n b0 b1 b2)[i]? = some PAD ↔ n + 1 ≤ i := by
  rw [encodeBlock_slot b0 b1 b2 h3 hi]
  split
  · next present => simp [alphabetChar_ne_pad, Nat.not_le.2 present]
  · next absent => simp [Nat.le_of_not_lt absent]

theorem mem_encodeBlock (h3 : n ≤ 3) {c : Byte} (mem : c ∈ encodeBlock n b0 b1 b2) :
    c ∈ alphabet ∨ c = PAD := by
  rw [encodeBlock_eq_slices b0 b1 b2 h3, List.mem_append, List.mem_map] at mem
  rcases mem with ⟨v, -, rfl⟩ | pad
  · exact .inl (alphabetChar_mem v)
  · exact .inr (List.eq_of_mem_replicate pad)

end

theorem encblk_wf_of_count {n : BitVec 2} (present : n ≠ 0) (b0 b1 b2 : Byte) :
    (Instr.encblk n b0 b1 b2).wf = true :=
  gather_wf_of_count present b0 b1 b2

theorem decode_encblkWord {n : BitVec 2} (present : n ≠ 0) (b0 b1 b2 : Byte) :
    decode (0x8#4 ++ 0#2 ++ n ++ b0 ++ b1 ++ b2 ++ 0#8) = .ok (.encblk n b0 b1 b2) := by
  have word : 0x8#4 ++ 0#2 ++ n ++ b0 ++ b1 ++ b2 ++ 0#8 = encode (.encblk n b0 b1 b2) :=
    congrArg (· ++ b0 ++ b1 ++ b2 ++ 0#8) (append_countN 0x8 n)
  rw [word, decode_encode (encblk_wf_of_count present b0 b1 b2)]

/-- Settles O20: the command delivers the block, whose slots are those of `encodeBlock_slot`. -/
theorem encblkResult : Obligations.EncblkResult := by
  unfold Obligations.EncblkResult
  intro s n b0 b1 b2 present free
  have h3 : n.toNat ≤ 3 := Nat.le_of_lt_succ n.isLt
  have wf := encblk_wf_of_count present b0 b1 b2
  exact ⟨decode_encblkWord present b0 b1 b2, encodeBlock n.toNat b0 b1 b2,
    exec_of_pure (i := .encblk n b0 b1 b2) trivial wf free, rfl, encodeBlock_length b0 b1 b2 h3,
    fun _ hi => encodeBlock_slot b0 b1 b2 h3 hi⟩

end Sys2Proof.Machine
end

section
/-! The closed form of a whole text (spec/42_encoder.md R96, R97), block by block: O50 and O52. -/

namespace Sys2Proof.Machine

/-- The block that begins a message or what is left of it: `min(3, len)` bytes are coded (R94). -/
def firstBlock (B : List Byte) : List Byte :=
  encodeBlock (min 3 B.length) (byteLane B 0) (byteLane B 1) (byteLane B 2)

theorem firstBlock_length (B : List Byte) : (firstBlock B).length = 4 :=
  encodeBlock_length _ _ _ (Nat.min_le_left 3 _)

/-- Full and short groups alike: a message that is not empty is its first block and the rest. -/
theorem encodeMessage_of_ne_nil {B : List Byte} (more : B ≠ []) :
    encodeMessage B = firstBlock B ++ encodeMessage (B.drop 3) := by
  match B, more with
  | [_], _ | [_, _], _ => exact (List.append_nil _).symm
  | _ :: _ :: _ :: rest, _ => simp [encodeMessage, firstBlock, byteLane]

/-- Induction over a message by its blocks. -/
theorem block_induction {motive : List Byte → Prop} (nil : motive [])
    (block : ∀ B, B ≠ [] → motive (B.drop 3) → motive B) (B : List Byte) : motive B :=
  encodeMessage.induct motive nil (fun _ => block _ nofun nil) (fun _ _ => block _ nofun nil)
    (fun _ _ _ _ ih => block _ nofun ih) B

theorem encodeMessage_length (B : List Byte) :
    (encodeMessage B).length = 4 * ceilThird B.length := by
  induction B using block_induction with
  | nil => rfl
  | block B more ih =>
    have pos := List.length_pos_of_ne_nil more
    rw [encodeMessage_of_ne_nil more, List.length_append, firstBlock_length, ih, List.length_drop]
    unfold ceilThird
    omega

/-- The indices of R96 shift by one full group. -/
theorem encodeByGroups_group (b0 b1 b2 : Byte) (rest : List Byte) :
    encodeByGroups (b0 :: b1 :: b2 :: rest) = encodeBlock 3 b0 b1 b2 ++ encodeByGroups rest := by
  have groups : (rest.length + 3) / 3 = rest.length / 3 + 1 := by omega
  have short : (rest.length + 3) % 3 = rest.length % 3 := by omega
  simp only [encodeByGroups, List.length_cons, groups, short, List.range_succ_eq_map,
    List.flatMap_cons, List.flatMap_map, Nat.mul_succ, List.append_assoc]
  rfl

theorem encodeMessage_eq_byGroups (B : List Byte) : encodeMessage B = encodeByGroups B := by
  fun_induction encodeMessage B with
  | case1 => rfl
  | case2 | case3 => simp [encodeByGroups]
  | case4 b0 b1 b2 rest ih => rw [encodeByGroups_group, ih]

/-- Settles O50: full groups shift the indices, and every block is four characters. -/
theorem encodedTextIsItsGroupsInOrder : Obligations.EncodedTextIsItsGroupsInOrder := by
  unfold Obligations.EncodedTextIsItsGroupsInOrder
  exact fun B => ⟨encodeMessage_eq_byGroups B, encodeMessage_length B⟩

theorem mem_encodeMessage {B : List Byte} {c : Byte} (mem : c ∈ encodeMessage B) :
    c ∈ alphabet ∨ c = PAD := by
  induction B using block_induction with
  | nil => cases mem
  | block B more ih =>
    rw [encodeMessage_of_ne_nil more, List.mem_append] at mem
    rcases mem with first | later
    · exact mem_encodeBlock _ _ _ (Nat.min_le_left 3 _) first
    · exact ih later

/-- A slot of the text is padding exactly when its 6 bits begin behind the `8 * len` bits of the
message. -/
theorem encodeMessage_pad_iff {B : List Byte} {i : Nat} (hi : i < (encodeMessage B).length) :
    (encodeMessage B)[i]? = some PAD ↔ 8 * B.length ≤ 6 * i := by
  induction B using block_induction generalizing i with
  | nil => cases hi
  | block B more ih =>
    have first := firstBlock_length B
    rw [encodeMessage_of_ne_nil more] at hi ⊢
    rw [List.length_append, first] at hi
    by_cases inFirst : i < 4
    · rw [List.getElem?_append_left (by omega), firstBlock,
        encodeBlock_pad_iff _ _ _ (Nat.min_le_left 3 _) inFirst]
      have := List.length_pos_of_ne_nil more
      omega
    · rw [List.getElem?_append_right (by omega), first, ih (by omega), List.length_drop]
      have := encodeMessage_length (B.drop 3)
      rw [List.length_drop, ceilThird] at this
      omega

/-- Settles O52: the slots behind the bits of the message are the last two, one or none. -/
theorem encodedTextIsClosedAndPadded : Obligations.EncodedTextIsClosedAndPadded := by
  unfold Obligations.EncodedTextIsClosedAndPadded
  refine fun B => ⟨fun c => mem_encodeMessage, fun i hi => (encodeMessage_pad_iff hi).trans ?_⟩
  rw [encodeMessage_length, ceilThird] at hi ⊢
  split_ifs <;> omega

end Sys2Proof.Machine
end

section
/-! The accept steps (spec/42_encoder.md R93, R98; spec/43_decoder.md R109, R115) and the finish
step (R95, R111): O22, O26, O44 and O49. -/

namespace Sys2Proof.Machine

variable {s s' : State} {rest : List HostAction}

/-- Settles O22: the word is that of the command, whose effect is the accept step. -/
theorem encodeAcceptStep : Obligations.EncodeAcceptStep := by
  unfold Obligations.EncodeAcceptStep
  exact fun s len fits free => ⟨decode_encode (i := .encode len) rfl,
    exec_of (i := .encode len) rfl fits free⟩

/-- Settles O26: both directions end alike. -/
theorem finishSteps : Obligations.FinishSteps := by
  unfold Obligations.FinishSteps
  exact fun s _ done => sequencerStep_finish done

/-! ## Nothing of an earlier call is looked at (R125) -/

/-- A block that is not `BUSY` takes a command by the parameter alone. -/
theorem takeCommand_congr (cfg : s.cfg = s'.cfg) (free : s.status ≠ .busy)
    (free' : s'.status ≠ .busy) (i : Instr) (x : StepResult) :
    takeCommand i s x = takeCommand i s' x := by
  simp only [takeCommand, cfg, if_neg free, if_neg free']

/-- Every register, `OBUF` and the reply are overwritten. -/
theorem acceptMessage_congr (cfg : s.cfg = s'.cfg) (ibuf : s.ibuf = s'.ibuf)
    (host : s.host = s'.host) (d : Mode) (len : Len) :
    acceptMessage d len s = acceptMessage d len s' := by
  simp only [acceptMessage, cfg, ibuf, host]

/-- Settles O44: a message command is admitted and accepted alike in the two states. -/
theorem noCrossCallState : Obligations.NoCrossCallState := by
  unfold Obligations.NoCrossCallState
  intro s s' len cfg ibuf host free free'
  have accept (d : Mode) : acceptMessage d len s = acceptMessage d len s' :=
    acceptMessage_congr cfg ibuf host d len
  have acceptDec : acceptDecode len s = acceptDecode len s' := by
    simp only [acceptDecode, accept]
  constructor
  · rw [exec_eq_admit, exec_eq_admit, effectOf, effectOf, accept, takeCommand_congr cfg free free']
  · rw [exec_eq_admit, exec_eq_admit, effectOf, effectOf, acceptDec,
      takeCommand_congr cfg free free']

/-! ## A message command under `WAIT` -/

theorem step_presents {i : Instr} (wf : i.wf = true) (fits : messageLength i ≤ s.cfg.maxLen)
    (free : s.status ≠ .busy) (hh : s.host = .present (encode i) :: rest) :
    step s = .next (effectOf i (s.withHost rest)) :=
  ((step_of_move hh).trans (presentCommand_of_decode (decode_encode wf) (s.withHost rest))).trans
    (exec_of wf fits free)

/-- While the host waits, the run goes on. -/
theorem step_waiting (busy : s.status = .busy) (hh : s.host = .wait :: rest) :
    step s = sequencerStep s :=
  (step_of_move hh).trans (hostWait_busy busy)

/-- The empty message is accepted at its end, in either direction. -/
theorem effectOf_empty {i : Instr} (empty : i = .encode 0 ∨ i = .decode 0) (s : State) :
    ∃ d, effectOf i s = acceptMessage d 0 s := by
  rcases empty with rfl | rfl
  · exact ⟨.enc, rfl⟩
  · exact ⟨.dec, rfl⟩

/-- Settles O49: the accept step leaves `POS = ILEN = 0`, so that the next step is the
finish step. -/
theorem emptyMessagesSucceed : Obligations.EmptyMessagesSucceed := by
  unfold Obligations.EmptyMessagesSucceed
  intro s i rest empty free hh
  have admitted : i.wf = true ∧ messageLength i ≤ s.cfg.maxLen := by
    rcases empty with rfl | rfl <;> exact ⟨rfl, Nat.zero_le _⟩
  obtain ⟨d, eff⟩ := effectOf_empty empty (s.withHost (.wait :: rest))
  have accept := step_presents admitted.1 admitted.2 free hh
  rw [eff] at accept
  have finish := (step_waiting (s := acceptMessage d 0 (s.withHost (.wait :: rest))) rfl rfl).trans
    (sequencerStep_finish rfl)
  refine ⟨finishRun (acceptMessage d 0 (s.withHost (.wait :: rest))), ?_, rfl, rfl, rfl, rfl, rfl,
    rfl⟩
  rw [steps_succ 1 accept, steps_succ 0 finish]
  rfl

end Sys2Proof.Machine
end

section
/-! A block step forward: where its group is written and its output fits, it is taken
(spec/42_encoder.md R94, R99; spec/43_decoder.md R110, R118): O24 and O38. -/

namespace Sys2Proof.Machine

variable {s : State}

/-! ## Sequences of cells -/

theorem readMany_append {m : Memory} {addr : Nat} {xs ys : List Byte} :
    m.readMany addr (xs.length + ys.length) = some (xs ++ ys) ↔
      m.readMany addr xs.length = some xs ∧ m.readMany (addr + xs.length) ys.length = some ys := by
  induction xs generalizing addr with
  | nil => simp [Memory.readMany]
  | cons x xs ih =>
    have shift : addr + (xs.length + 1) = addr + 1 + xs.length := by omega
    rw [List.length_cons, Nat.add_right_comm, List.cons_append, readMany_succ, readMany_succ, shift]
    simp [ih, and_assoc]

theorem readMany_writeMany (m : Memory) (addr : Nat) (bs : List Byte) :
    (m.writeMany addr bs).readMany addr bs.length = some bs :=
  readMany_iff.2 ⟨rfl, fun _ hk => read_writeMany_inside m addr bs hk⟩

theorem readMany_some_of_read {m : Memory} {addr n : Nat}
    (written : ∀ a, addr ≤ a → a < addr + n → ∃ b, m.read a = some b) :
    ∃ bs, m.readMany addr n = some bs := by
  induction n generalizing addr with
  | zero => exact ⟨[], rfl⟩
  | succ n ih =>
    obtain ⟨b, first⟩ := written addr (Nat.le_refl _) (by omega)
    obtain ⟨bs, rest⟩ := ih (addr := addr + 1) fun a hl hu => written a (by omega) (by omega)
    exact ⟨b :: bs, readMany_succ.2 ⟨b, bs, rfl, first, rest⟩⟩

theorem readMessage_of {n : Nat} {bs : List Byte} (inside : s.pos.toNat + n ≤ s.ilen.toNat)
    (read : s.ibuf.readMany s.pos.toNat n = some bs) : readMessage n s = .ok bs := by
  rw [readMessage, if_pos inside, read]

theorem appendOutput_of {bs : List Byte} (room : s.olen.toNat + bs.length ≤ s.cfg.ocap) :
    appendOutput bs s = .ok { s with obuf := s.obuf.writeMany s.olen.toNat bs
                                     olen := s.olen + BitVec.ofNat 32 bs.length } :=
  if_pos room

/-! ## The block steps -/

theorem encodeCount_inside (more : s.pos.toNat < s.ilen.toNat) :
    s.pos.toNat + encodeCount s ≤ s.ilen.toNat := by
  rcases encodeCount_cases more with ⟨_, _⟩ | ⟨_, _, _⟩ <;> omega

theorem encodeBlockStep_of {bs : List Byte} (more : s.pos.toNat < s.ilen.toNat)
    (read : s.ibuf.readMany s.pos.toNat (encodeCount s) = some bs)
    (room : s.olen.toNat + 4 ≤ s.cfg.ocap) :
    encodeBlockStep s = .next (afterEncodeBlock s bs) := by
  have len := encodeBlock_length (byteLane bs 0) (byteLane bs 1) (byteLane bs 2) (encodeCount_le s)
  simp only [encodeBlockStep, readMessage_of (encodeCount_inside more) read,
    appendOutput_of (len.symm ▸ room), len]
  rfl

/-- Under the invariant an `ENCODE` run whose next group is written takes its block step. -/
theorem sequencerStep_afterEncodeBlock {bs : List Byte} (h : s.Inv) (busy : s.status = .busy)
    (mode : s.mode = .enc) (more : s.pos.toNat < s.ilen.toNat)
    (read : s.ibuf.readMany s.pos.toNat (encodeCount s) = some bs) :
    sequencerStep s = .next (afterEncodeBlock s bs) :=
  (sequencerStep_encodeBlock mode more).trans
    (encodeBlockStep_of more read (room_of_encodeBlock h busy mode more))

theorem decodeBlockStep_of_none {cs : List Byte} (inside : s.pos.toNat + 4 ≤ s.ilen.toNat)
    (read : s.ibuf.readMany s.pos.toNat 4 = some cs)
    (bad : decodeBlock (byteLane cs 0) (byteLane cs 1) (byteLane cs 2) (byteLane cs 3)
      (finalGroup s) = none) : decodeBlockStep s = .next (raiseInvalidInput s) := by
  simp only [decodeBlockStep, readMessage_of inside read, bad]

theorem decodeBlockStep_of_some {cs ys : List Byte} (inside : s.pos.toNat + 4 ≤ s.ilen.toNat)
    (read : s.ibuf.readMany s.pos.toNat 4 = some cs)
    (ok : decodeBlock (byteLane cs 0) (byteLane cs 1) (byteLane cs 2) (byteLane cs 3)
      (finalGroup s) = some ys) (room : s.olen.toNat + ys.length ≤ s.cfg.ocap) :
    decodeBlockStep s = .next (afterDecodeBlock s ys) := by
  simp only [decodeBlockStep, readMessage_of inside read, ok, appendOutput_of room]
  rfl

/-- Under the invariant a `DECODE` run whose next group is written takes its block step, one way or
the other. -/
theorem sequencerStep_decodeBlock_cases {cs : List Byte} (h : s.Inv) (busy : s.status = .busy)
    (mode : s.mode = .dec) (more : s.pos.toNat < s.ilen.toNat)
    (read : s.ibuf.readMany s.pos.toNat 4 = some cs) :
    sequencerStep s = .next (raiseInvalidInput s) ∨
      ∃ ys, sequencerStep s = .next (afterDecodeBlock s ys) := by
  have inside := group_of_decodeBlock h busy mode more
  rw [sequencerStep_decodeBlock mode more]
  cases block : decodeBlock (byteLane cs 0) (byteLane cs 1) (byteLane cs 2) (byteLane cs 3)
      (finalGroup s) with
  | none => exact .inl (decodeBlockStep_of_none inside read block)
  | some ys =>
    have room := room_of_decodeBlock h busy mode more
    obtain ⟨-, -, len⟩ := decodeBlock_some block
    exact .inr ⟨ys, decodeBlockStep_of_some inside read block (by omega)⟩

/-- Settles O24: the step leaves `afterEncodeBlock`, whose cells are those of `Memory.writeMany`
(`encodeBlockStep` is the model's function). -/
theorem encodeBlockStepAppendsItsBlock : Obligations.EncodeBlockStep := by
  unfold Obligations.EncodeBlockStep
  rintro s n bs h busy mode more rfl read
  have room := room_of_encodeBlock h busy mode more
  have len := encodeBlock_length (byteLane bs 0) (byteLane bs 1) (byteLane bs 2) (encodeCount_le s)
  refine ⟨afterEncodeBlock s bs, sequencerStep_afterEncodeBlock h busy mode more read, rfl, ?_, ?_,
    afterEncodeBlock_olen_toNat bs h.legal room, afterEncodeBlock_pos_toNat bs⟩
  · have cells := readMany_writeMany s.obuf s.olen.toNat
      (encodeBlock (encodeCount s) (byteLane bs 0) (byteLane bs 1) (byteLane bs 2))
    rwa [len] at cells
  · exact fun a outside => read_writeMany_outside _ _ _ (by rwa [len])

/-- Settles O38: before the end of the message the block step of the mode is taken, and at its end
the finish step. -/
theorem runsMakeProgress : Obligations.RunsMakeProgress := by
  unfold Obligations.RunsMakeProgress
  intro s h busy loaded
  have written {n : Nat} (inside : s.pos.toNat + n ≤ s.ilen.toNat) :
      ∃ bs, s.ibuf.readMany s.pos.toNat n = some bs :=
    readMany_some_of_read fun a _ hu => loaded a (by omega)
  rcases Nat.lt_or_eq_of_le h.posLe with more | done
  · cases mode : s.mode with
    | enc =>
      obtain ⟨bs, read⟩ := written (encodeCount_inside more)
      refine ⟨_, sequencerStep_afterEncodeBlock h busy mode more read, .inr (.inr ⟨busy, ?_⟩)⟩
      rw [afterEncodeBlock_pos_toNat]
      rcases encodeCount_cases more with ⟨_, _⟩ | ⟨_, _, _⟩ <;> omega
    | dec =>
      have inside := group_of_decodeBlock h busy mode more
      obtain ⟨cs, read⟩ := written inside
      rcases sequencerStep_decodeBlock_cases h busy mode more read with bad | ⟨ys, good⟩
      · exact ⟨_, bad, .inr (.inl rfl)⟩
      · refine ⟨_, good, .inr (.inr ⟨busy, ?_⟩)⟩
        rw [afterDecodeBlock_pos_toNat ys inside]
        omega
  · exact ⟨_, sequencerStep_finish (BitVec.eq_of_toNat_eq done), .inl rfl⟩

end Sys2Proof.Machine
end

section
/-! A whole run of `ENCODE` (spec/42_encoder.md R92 to R96), by induction over the message that is
left: O46. -/

namespace Sys2Proof.Machine

variable {s : State} {written B : List Byte} {rest : List HostAction}

theorem readMany_writeMany_append {m : Memory} {n : Nat} {xs : List Byte}
    (text : m.readMany 0 n = some xs) (ys : List Byte) :
    (m.writeMany n ys).readMany 0 (n + ys.length) = some (xs ++ ys) := by
  have len := readMany_length text
  subst len
  refine readMany_append.2 ⟨?_, ?_⟩
  · rw [readMany_congr fun a _ hu => read_writeMany_outside m xs.length ys (.inl (by omega)), text]
  · rw [Nat.zero_add]
    exact readMany_writeMany m xs.length ys

/-- An `ENCODE` run under `WAIT` that has written the text `written` and has the bytes `B` of its
message still to read. -/
structure EncodeRun (s : State) (written B : List Byte) (rest : List HostAction) : Prop where
  inv : s.Inv
  busy : s.status = .busy
  mode : s.mode = .enc
  host : s.host = .wait :: rest
  left : s.pos.toNat + B.length = s.ilen.toNat
  read : s.ibuf.readMany s.pos.toNat B.length = some B
  text : s.obuf.readMany 0 s.olen.toNat = some written

/-- `t` is the end in success of a run from `s`, with `out` in `OBUF`; nothing but the registers
that move, `OBUF` and the result differs. -/
structure RunEnd (s t : State) (out : List Byte) : Prop where
  frame : t = { s with status := .doneOk, pos := s.ilen, olen := t.olen, obuf := t.obuf
                       reply := some (.result (.length t.olen)) }
  text : t.obuf.readMany 0 t.olen.toNat = some out

namespace EncodeRun

/-- The accept step begins the run with the whole message to read. -/
theorem accept {len : Len} (h : s.Inv) (fits : len.toNat ≤ s.cfg.maxLen)
    (loaded : s.ibuf.readMany 0 len.toNat = some B) :
    EncodeRun (acceptMessage .enc len (s.withHost (.wait :: rest))) [] B rest := by
  have len_eq := readMany_length loaded
  exact
    { inv := acceptMessage_inv (withHost_inv h _) fits nofun
      busy := rfl
      mode := rfl
      host := rfl
      left := (Nat.zero_add _).trans len_eq
      read := by rw [len_eq]; exact loaded
      text := rfl }

theorem more (run : EncodeRun s written B rest) (ne : B ≠ []) : s.pos.toNat < s.ilen.toNat := by
  have left := run.left
  have := List.length_pos_of_ne_nil ne
  omega

/-- The block step reads the bytes of the first block. -/
theorem count (run : EncodeRun s written B rest) : encodeCount s = min 3 B.length := by
  have left := run.left
  unfold encodeCount
  omega

theorem read_split (run : EncodeRun s written B rest) :
    s.ibuf.readMany s.pos.toNat (encodeCount s) = some (B.take 3) ∧
      s.ibuf.readMany (s.pos.toNat + encodeCount s) (B.drop 3).length = some (B.drop 3) := by
  have count : (B.take 3).length = encodeCount s := by rw [List.length_take, run.count]
  have read := run.read
  rw [← count]
  refine readMany_append.1 ?_
  rwa [← List.length_append, List.take_append_drop]

/-- A block step codes the first block and goes on with the rest. -/
theorem block (run : EncodeRun s written B rest) (ne : B ≠ []) :
    step s = .next (afterEncodeBlock s (B.take 3)) ∧
      EncodeRun (afterEncodeBlock s (B.take 3)) (written ++ firstBlock B) (B.drop 3) rest := by
  have more := run.more ne
  have room := room_of_encodeBlock run.inv run.busy run.mode more
  have count := run.count
  obtain ⟨first, later⟩ := run.read_split
  have pos := afterEncodeBlock_pos_toNat (s := s) (B.take 3)
  have chars : encodeBlock (encodeCount s) (byteLane (B.take 3) 0) (byteLane (B.take 3) 1)
      (byteLane (B.take 3) 2) = firstBlock B := by
    simp [firstBlock, count, byteLane, List.getD_eq_getElem?_getD]
  refine ⟨(step_waiting run.busy run.host).trans
    (sequencerStep_afterEncodeBlock run.inv run.busy run.mode more first), ?_⟩
  exact
    { inv := afterEncodeBlock_inv run.inv run.busy run.mode more room _
      busy := run.busy
      mode := run.mode
      host := run.host
      left := by
        have left := run.left
        rw [pos, count, List.length_drop]
        change _ = s.ilen.toNat
        omega
      read := by
        rw [pos]
        exact later
      text := by
        rw [afterEncodeBlock_olen_toNat _ run.inv.legal room, ← firstBlock_length B, ← chars]
        exact readMany_writeMany_append run.text _ }

/-- At the end of the message the run ends with the text that is written. -/
theorem finish (run : EncodeRun s written [] rest) :
    step s = .next (finishRun s) ∧ RunEnd s (finishRun s) written := by
  have done : s.pos = s.ilen := BitVec.eq_of_toNat_eq run.left
  refine ⟨(step_waiting run.busy run.host).trans (sequencerStep_finish done), ?_, run.text⟩
  exact congrArg (fun pos => { finishRun s with pos }) done

/-- The run takes its block steps and the finish step, and appends the text of the bytes left. -/
theorem ends (run : EncodeRun s written B rest) :
    ∃ t, steps (ceilThird B.length + 1) s = .next t ∧ RunEnd s t (written ++ encodeMessage B) := by
  induction B using block_induction generalizing s written with
  | nil =>
    obtain ⟨last, fin⟩ := run.finish
    refine ⟨_, (steps_succ 0 last).trans rfl, ?_⟩
    rwa [encodeMessage, List.append_nil]
  | block B ne ih =>
    obtain ⟨first, go⟩ := run.block ne
    obtain ⟨t, later, frame, text⟩ := ih go
    have blocks : ceilThird B.length = ceilThird (B.drop 3).length + 1 := by
      have := List.length_pos_of_ne_nil ne
      rw [List.length_drop]
      unfold ceilThird
      omega
    refine ⟨t, ?_, frame, ?_⟩
    · rw [blocks, steps_succ _ first, later]
    · rw [encodeMessage_of_ne_nil ne, ← List.append_assoc]
      exact text

end EncodeRun

/-- Settles O46: the accept step begins a run with the whole message to read, which ends with
`encodeMessage`, and that is the closed form by indices. -/
theorem encodeRunEndsInTheClosedForm : Obligations.EncodeRunEndsInTheClosedForm := by
  unfold Obligations.EncodeRunEndsInTheClosedForm
  intro s len B rest h free fits loaded hh
  obtain ⟨t, later, frame, text⟩ := (EncodeRun.accept (rest := rest) h fits loaded).ends
  have olen := readMany_length text
  rw [List.nil_append, encodeMessage_length, readMany_length loaded] at olen
  rw [List.nil_append, encodeMessage_eq_byGroups] at text
  rw [readMany_length loaded] at later
  have first := step_presents (i := .encode len) rfl fits free hh
  exact ⟨t, (steps_succ _ first).trans later, congrArg State.status frame,
    congrArg State.mode frame, congrArg State.ilen frame, congrArg State.pos frame, olen.symm, text,
    congrArg State.reply frame, (congrArg State.ibuf frame :),
    (congrArg State.cfg frame :), congrArg State.host frame⟩

end Sys2Proof.Machine
end

section
/-! When a group decodes (spec/43_decoder.md R100 to R107): `decode_block` answers the bytes of
`GroupDecodes` and fails on every other group; O21. -/

namespace Sys2Proof.Machine

theorem valuesFor_cons (c : Byte) (cs : List Byte) :
    valuesFor (c :: cs) = (valueFor c).bind fun v => (valuesFor cs).map (v :: ·) := by
  rw [valuesFor]
  cases valueFor c <;> cases valuesFor cs <;> rfl

/-- The symbol map over a list of characters is undone by the table of R70. -/
theorem valuesFor_eq_some_iff {cs : List Byte} {vs : List Sym} :
    valuesFor cs = some vs ↔ cs = vs.map alphabetChar := by
  induction cs generalizing vs with
  | nil => simp [valuesFor, eq_comm]
  | cons c cs ih =>
    rw [valuesFor_cons, eq_comm (b := vs.map alphabetChar), List.map_eq_cons_iff]
    simp only [Option.bind_eq_some_iff, Option.map_eq_some_iff, valueFor_eq_some_iff, ih]
    constructor
    · rintro ⟨v, rfl, ws, rfl, rfl⟩
      exact ⟨v, ws, rfl, rfl, rfl⟩
    · rintro ⟨v, ws, rfl, rfl, rfl⟩
      exact ⟨v, rfl, ws, rfl, rfl⟩

section
variable {c0 c1 c2 c3 : Byte} {final : Bool} {vs : List Sym} {ys : List Byte}

/-- A group ends in `p` padding characters (R101). -/
theorem group_eq_take_append_pads (c0 c1 c2 c3 : Byte) :
    [c0, c1, c2, c3] = [c0, c1, c2, c3].take (4 - padCount c0 c1 c2 c3) ++
      List.replicate (padCount c0 c1 c2 c3) PAD := by
  unfold padCount
  split_ifs with h3 h2 h1 h0 <;> simp_all [List.replicate_succ]

/-- The padding behind the values is the longest one: a value's character is no padding (R104). -/
theorem padCount_of_values (h2 : 2 ≤ vs.length) (h4 : vs.length ≤ 4)
    (group : [c0, c1, c2, c3] = vs.map alphabetChar ++ List.replicate (4 - vs.length) PAD) :
    padCount c0 c1 c2 c3 = 4 - vs.length := by
  match vs, h2, h4 with
  | [_, _], _, _ | [_, _, _], _, _ | [_, _, _, _], _, _ =>
    cases group
    simp [padCount, alphabetChar_ne_pad]

/-- The three checks of R100 and what passes them. -/
theorem decodeBlock_eq_some_iff_values : decodeBlock c0 c1 c2 c3 final = some ys ↔
    (0 < padCount c0 c1 c2 c3 → final = true) ∧ padCount c0 c1 c2 c3 ≤ 2 ∧
      ∃ vs, valuesFor ([c0, c1, c2, c3].take (4 - padCount c0 c1 c2 c3)) = some vs ∧
        ys = scatter (4 - padCount c0 c1 c2 c3) (vs.getD 0 0) (vs.getD 1 0) (vs.getD 2 0)
          (vs.getD 3 0) := by
  unfold decodeBlock
  dsimp only
  split
  · next early => simp [early]
  · next placed =>
    split
    · next many => exact iff_of_false nofun fun ⟨_, atMost, _⟩ => many.not_gt (by omega)
    · next few =>
      have padded : 0 < padCount c0 c1 c2 c3 → final = true := by simpa using placed
      have atMost : padCount c0 c1 c2 c3 ≤ 2 := by omega
      rw [and_iff_right padded, and_iff_right atMost]
      cases valuesFor ([c0, c1, c2, c3].take (4 - padCount c0 c1 c2 c3)) <;>
        simp [symLane, eq_comm]

/-- `decode_block` answers the bytes of the groups that decode, and no others. -/
theorem decodeBlock_eq_some_iff :
    decodeBlock c0 c1 c2 c3 final = some ys ↔ GroupDecodes c0 c1 c2 c3 final ys := by
  rw [decodeBlock_eq_some_iff_values]
  constructor
  · rintro ⟨placed, few, vs, values, rfl⟩
    have chars := valuesFor_eq_some_iff.1 values
    have group := group_eq_take_append_pads c0 c1 c2 c3
    have len : vs.length = 4 - padCount c0 c1 c2 c3 := by
      simpa using (congrArg List.length chars).symm
    have pads : padCount c0 c1 c2 c3 = 4 - vs.length := by omega
    rw [chars] at group
    rw [← len]
    rw [pads] at group placed
    exact ⟨vs, by omega, by omega, group, fun short => placed (by omega),
      scatter_list (by omega) (by omega)⟩
  · rintro ⟨vs, h2, h4, group, placed, rfl⟩
    have pads := padCount_of_values h2 h4 group
    have len : 4 - padCount c0 c1 c2 c3 = vs.length := by omega
    refine ⟨fun padded => placed (by omega), by omega, vs, valuesFor_eq_some_iff.2 ?_, ?_⟩
    · rw [group, len, List.take_left' (List.length_map _)]
    · rw [len, scatter_list h2 h4]

theorem decodeBlock_eq_none_iff :
    decodeBlock c0 c1 c2 c3 final = none ↔ ¬ ∃ ys, GroupDecodes c0 c1 c2 c3 final ys := by
  simp only [← decodeBlock_eq_some_iff, Option.eq_none_iff_forall_ne_some, not_exists]

theorem decblkResult_of_some (ok : decodeBlock c0 c1 c2 c3 final = some ys) :
    decblkResult final c0 c1 c2 c3 = .bytes ys := by
  rw [decblkResult, ok]

theorem decblkResult_of_none (bad : decodeBlock c0 c1 c2 c3 final = none) :
    decblkResult final c0 c1 c2 c3 = .fail := by
  rw [decblkResult, bad]

end

theorem append_finalBit (op : BitVec 4) (final : Bool) :
    op ++ 0#3 ++ BitVec.ofBool final = op ++ (if final then 1#4 else 0#4) := by
  decide +revert

theorem decode_decblkWord (final : Bool) (c0 c1 c2 c3 : Byte) :
    decode (0x9#4 ++ 0#3 ++ BitVec.ofBool final ++ c0 ++ c1 ++ c2 ++ c3) =
      .ok (.decblk final c0 c1 c2 c3) := by
  have word : 0x9#4 ++ 0#3 ++ BitVec.ofBool final ++ c0 ++ c1 ++ c2 ++ c3 =
      encode (.decblk final c0 c1 c2 c3) :=
    congrArg (· ++ c0 ++ c1 ++ c2 ++ c3) (append_finalBit 0x9 final)
  rw [word, decode_encode rfl]

/-- Settles O21: the command delivers what `decode_block` answers, and that is described by
`GroupDecodes`. -/
theorem decblkResultForEveryGroup : Obligations.DecblkResult := by
  unfold Obligations.DecblkResult
  intro s final c0 c1 c2 c3 free
  have delivers := exec_of_pure (i := .decblk final c0 c1 c2 c3) trivial rfl free
  refine ⟨decode_decblkWord final c0 c1 c2 c3, fun ys decodes => ?_, fun fails => ?_⟩
  · rw [delivers, effectOf, decblkResult_of_some (decodeBlock_eq_some_iff.2 decodes)]
    rfl
  · rw [delivers, effectOf, decblkResult_of_none (decodeBlock_eq_none_iff.2 fails)]
    rfl

end Sys2Proof.Machine
end

section
/-! The `DECODE` accept step (spec/43_decoder.md R109) and block step (R110), on a group that
decodes and on one that does not: O23 and O25. -/

namespace Sys2Proof.Machine

variable {s : State}

theorem acceptDecode_of_aligned {len : Len} (aligned : len.toNat % 4 = 0) :
    acceptDecode len s = acceptMessage .dec len s := if_pos aligned

theorem acceptDecode_of_bad_length {len : Len} (bad : len.toNat % 4 ≠ 0) :
    acceptDecode len s = raiseInvalidInput (acceptMessage .dec len s) := if_neg bad

/-- Settles O23: the word is that of the command, whose effect is the accept step with its one
check, that of the length. -/
theorem decodeAcceptStep : Obligations.DecodeAcceptStep := by
  unfold Obligations.DecodeAcceptStep
  intro s len fits free
  refine ⟨decode_encode (i := .decode len) rfl, ?_⟩
  rw [exec_of (i := .decode len) rfl fits free, effectOf]
  by_cases aligned : len.toNat % 4 = 0
  · rw [acceptDecode_of_aligned aligned, if_pos aligned, if_pos aligned]
    rfl
  · rw [acceptDecode_of_bad_length aligned, if_neg aligned, if_neg aligned]
    rfl

section
variable {c0 c1 c2 c3 : Byte} {ys : List Byte}
variable (h : s.Inv) (busy : s.status = .busy) (mode : s.mode = .dec)
  (more : s.pos.toNat < s.ilen.toNat)
  (read : s.ibuf.readMany s.pos.toNat 4 = some [c0, c1, c2, c3])
include h busy mode more read

theorem sequencerStep_raiseInvalidInput (bad : decodeBlock c0 c1 c2 c3 (finalGroup s) = none) :
    sequencerStep s = .next (raiseInvalidInput s) :=
  (sequencerStep_decodeBlock mode more).trans
    (decodeBlockStep_of_none (group_of_decodeBlock h busy mode more) read bad)

theorem sequencerStep_afterDecodeBlock
    (ok : decodeBlock c0 c1 c2 c3 (finalGroup s) = some ys) :
    s.olen.toNat + ys.length ≤ s.cfg.ocap ∧
      sequencerStep s = .next (afterDecodeBlock s ys) := by
  have room : s.olen.toNat + ys.length ≤ s.cfg.ocap := by
    have := room_of_decodeBlock h busy mode more
    obtain ⟨-, -, len⟩ := decodeBlock_some ok
    omega
  exact ⟨room, (sequencerStep_decodeBlock mode more).trans
    (decodeBlockStep_of_some (group_of_decodeBlock h busy mode more) read ok room)⟩

end

/-- Settles O25: whether the group decodes is what `decode_block` answers, and the step leaves
`afterDecodeBlock` or `raiseInvalidInput` (`decodeBlockStep` is the model's function). -/
theorem decodeBlockStepAppendsOrRaises : Obligations.DecodeBlockStep := by
  unfold Obligations.DecodeBlockStep
  intro s c0 c1 c2 c3 h busy mode more read
  refine ⟨fun ys decodes => ?_, fun fails => ?_⟩
  · have ok : decodeBlock c0 c1 c2 c3 (finalGroup s) = some ys := decodeBlock_eq_some_iff.2 decodes
    obtain ⟨room, step⟩ := sequencerStep_afterDecodeBlock h busy mode more read ok
    exact ⟨afterDecodeBlock s ys, step, rfl, readMany_writeMany s.obuf s.olen.toNat ys,
      fun a outside => read_writeMany_outside _ _ _ outside,
      afterDecodeBlock_olen_toNat ys h.legal room,
      afterDecodeBlock_pos_toNat ys (group_of_decodeBlock h busy mode more)⟩
  · exact sequencerStep_raiseInvalidInput h busy mode more read (decodeBlock_eq_none_iff.2 fails)

end Sys2Proof.Machine
end

section
/-! The closed form of `decode` (spec/43_decoder.md R112), group by group: it is the one by indices
(O51), and it undoes `encode` (R114, O55). -/

namespace Sys2Proof.Machine

/-- Induction over a text by its groups. -/
theorem group_induction {motive : List Byte → Prop} (nil : motive [])
    (short : ∀ T, T ≠ [] → T.length < 4 → motive T)
    (group : ∀ c0 c1 c2 c3 rest, motive rest → motive (c0 :: c1 :: c2 :: c3 :: rest)) :
    ∀ T, motive T
  | [] => nil
  | [_] => short _ nofun (by simp)
  | [_, _] => short _ nofun (by simp)
  | [_, _, _] => short _ nofun (by simp)
  | c0 :: c1 :: c2 :: c3 :: rest => group c0 c1 c2 c3 rest (group_induction nil short group rest)

section
variable {c0 c1 c2 c3 : Byte} {T rest : List Byte}

/-- One group and the rest, either of which may fail. -/
theorem decodeMessage_group :
    decodeMessage (c0 :: c1 :: c2 :: c3 :: rest) =
      (decodeBlock c0 c1 c2 c3 rest.isEmpty).bind fun ys => (decodeMessage rest).map (ys ++ ·) := by
  rw [decodeMessage]
  cases decodeBlock c0 c1 c2 c3 rest.isEmpty <;> cases decodeMessage rest <;> rfl

theorem decodeMessage_short (ne : T ≠ []) (short : T.length < 4) : decodeMessage T = none := by
  match T, ne, short with
  | [_], _, _ | [_, _], _, _ | [_, _, _], _, _ => rfl

/-! ## By indices (R112) -/

/-- What group `i` of a text answers. -/
def groupOutput (T : List Byte) (i : Nat) : Option (List Byte) :=
  decodeBlock (T.getD (4 * i) 0) (T.getD (4 * i + 1) 0) (T.getD (4 * i + 2) 0)
    (T.getD (4 * i + 3) 0) (i + 1 == T.length / 4)

/-- The outputs in order, where no group fails. -/
def joinOutputs (rs : List (Option (List Byte))) : Option (List Byte) :=
  if rs.all Option.isSome then some (rs.flatMap (fun r => r.getD [])) else none

theorem joinOutputs_cons (r : Option (List Byte)) (rs : List (Option (List Byte))) :
    joinOutputs (r :: rs) = r.bind fun ys => (joinOutputs rs).map (ys ++ ·) := by
  cases r with
  | none => rfl
  | some ys =>
    unfold joinOutputs
    by_cases all : rs.all Option.isSome <;> simp [all]

theorem decodeByGroups_aligned (aligned : T.length % 4 = 0) :
    decodeByGroups T = joinOutputs ((List.range (T.length / 4)).map (groupOutput T)) :=
  if_neg (not_not_intro aligned)

theorem group_count : (c0 :: c1 :: c2 :: c3 :: rest).length / 4 = rest.length / 4 + 1 :=
  Nat.add_div_right rest.length (z := 4) (by decide)

theorem group_aligned : (c0 :: c1 :: c2 :: c3 :: rest).length % 4 = rest.length % 4 :=
  Nat.add_mod_right rest.length 4

theorem groupOutput_first (aligned : rest.length % 4 = 0) :
    groupOutput (c0 :: c1 :: c2 :: c3 :: rest) 0 = decodeBlock c0 c1 c2 c3 rest.isEmpty := by
  have last : (0 + 1 == rest.length / 4 + 1) = rest.isEmpty := by
    rw [Bool.eq_iff_iff, beq_iff_eq, List.isEmpty_iff_length_eq_zero]
    omega
  rw [groupOutput, group_count, last]
  rfl

theorem groupOutput_later :
    groupOutput (c0 :: c1 :: c2 :: c3 :: rest) ∘ Nat.succ = groupOutput rest := by
  funext i
  have last : (i + 1 + 1 == rest.length / 4 + 1) = (i + 1 == rest.length / 4) := by simp
  rw [Function.comp_apply, groupOutput, group_count, last]
  rfl

/-- The indices of R112 shift by one group. -/
theorem decodeByGroups_group :
    decodeByGroups (c0 :: c1 :: c2 :: c3 :: rest) =
      (decodeBlock c0 c1 c2 c3 rest.isEmpty).bind fun ys =>
        (decodeByGroups rest).map (ys ++ ·) := by
  by_cases aligned : rest.length % 4 = 0
  · rw [decodeByGroups_aligned aligned, decodeByGroups_aligned (group_aligned.trans aligned),
      group_count, List.range_succ_eq_map, List.map_cons, List.map_map, joinOutputs_cons,
      groupOutput_first aligned, groupOutput_later]
  · rw [decodeByGroups, group_aligned, if_pos aligned, decodeByGroups, if_pos aligned]
    simp

theorem decodeMessage_eq_byGroups (T : List Byte) : decodeMessage T = decodeByGroups T := by
  induction T using group_induction with
  | nil => rfl
  | short T ne short =>
    have pos := List.length_pos_of_ne_nil ne
    rw [decodeMessage_short ne short, decodeByGroups, if_pos (by omega)]
  | group c0 c1 c2 c3 rest ih => rw [decodeMessage_group, decodeByGroups_group, ih]

end

/-- Settles O51: a group in front shifts the indices. -/
theorem decodedBytesAreTheGroupsInOrder : Obligations.DecodedBytesAreTheGroupsInOrder := by
  unfold Obligations.DecodedBytesAreTheGroupsInOrder
  exact decodeMessage_eq_byGroups

end Sys2Proof.Machine
end

section
/-! Decoding undoes encoding, block by block (spec/43_decoder.md R114): O55. -/

namespace Sys2Proof.Machine

/-- The characters of 1, 2 or 3 bytes decode to those bytes (R85). -/
theorem encodeBlock_decodes {n : Nat} (h1 : 1 ≤ n) (h3 : n ≤ 3) (b0 b1 b2 : Byte) {final : Bool}
    (short : n < 3 → final = true) {c0 c1 c2 c3 : Byte}
    (chars : encodeBlock n b0 b1 b2 = [c0, c1, c2, c3]) :
    GroupDecodes c0 c1 c2 c3 final ([b0, b1, b2].take n) := by
  obtain ⟨len, bytes⟩ := scatterUndoesGather n b0 b1 b2 h1 h3
  have slices := scatter_list (vs := gather n b0 b1 b2) (by omega) (by omega)
  refine ⟨gather n b0 b1 b2, by omega, by omega, ?_, fun few => short (by omega), ?_⟩
  · rw [← chars, encodeBlock_eq_slices b0 b1 b2 h3, ← gather_eq_slices, len,
      Nat.add_sub_add_right 3 1 n]
  · rw [← slices, len, bytes]

theorem take_three_eq_lanes (B : List Byte) :
    [byteLane B 0, byteLane B 1, byteLane B 2].take (min 3 B.length) = B.take 3 := by
  match B with
  | [] | [_] | [_, _] | _ :: _ :: _ :: _ => simp [byteLane]

theorem firstBlock_decodes {B : List Byte} (ne : B ≠ []) {final : Bool}
    (short : B.length < 3 → final = true) {c0 c1 c2 c3 : Byte}
    (chars : firstBlock B = [c0, c1, c2, c3]) :
    decodeBlock c0 c1 c2 c3 final = some (B.take 3) := by
  have pos := List.length_pos_of_ne_nil ne
  rw [← take_three_eq_lanes]
  exact decodeBlock_eq_some_iff.2
    (encodeBlock_decodes (by omega) (Nat.min_le_left _ _) _ _ _ (fun few => short (by omega)) chars)

theorem decodeMessage_encodeMessage (B : List Byte) : decodeMessage (encodeMessage B) = some B := by
  induction B using block_induction with
  | nil => rfl
  | block B ne ih =>
    obtain ⟨c0, c1, c2, c3, chars⟩ := List.length_eq_four.1 (firstBlock_length B)
    have short (few : B.length < 3) : (encodeMessage (B.drop 3)).isEmpty = true := by
      rw [List.drop_eq_nil_of_le (Nat.le_of_lt few)]
      rfl
    rw [encodeMessage_of_ne_nil ne, chars]
    calc decodeMessage (c0 :: c1 :: c2 :: c3 :: encodeMessage (B.drop 3))
      _ = some (B.take 3 ++ B.drop 3) := by
        rw [decodeMessage_group, firstBlock_decodes ne short chars, ih]
        rfl
      _ = some B := by rw [List.take_append_drop]

/-- Settles O55: each block of the text decodes to the bytes it codes. -/
theorem decodeUndoesEncode : Obligations.DecodeUndoesEncode := by
  unfold Obligations.DecodeUndoesEncode
  exact decodeMessage_encodeMessage

end Sys2Proof.Machine
end

section
/-! The texts that decode (spec/43_decoder.md R113): alphabet characters and at most two padding
characters behind them, in full groups; and the length of what they decode to (O53). -/

namespace Sys2Proof.Machine

/-- `T` is the characters of the values `vs`, then `p` padding characters, at most two, in full
groups. -/
structure PaddedText (T : List Byte) (vs : List Sym) (p : Nat) : Prop where
  chars : T = vs.map alphabetChar ++ List.replicate p PAD
  few : p ≤ 2
  aligned : T.length % 4 = 0

variable {T G : List Byte} {us vs : List Sym} {p : Nat}

theorem PaddedText.length_eq (text : PaddedText T vs p) : T.length = vs.length + p := by
  simp [text.chars]

theorem PaddedText.append (front : PaddedText G us 0) (text : PaddedText T vs p) :
    PaddedText (G ++ T) (us ++ vs) p where
  chars := by simp [front.chars, text.chars]
  few := text.few
  aligned := by
    have := front.aligned
    have := text.aligned
    rw [List.length_append]
    omega

/-- The padding stands in the last group: in front of a group there are values only. -/
theorem PaddedText.split (text : PaddedText (G ++ T) vs p) (alignedG : G.length % 4 = 0)
    (ne : T ≠ []) :
    PaddedText G (vs.take G.length) 0 ∧ PaddedText T (vs.drop G.length) p := by
  have pos := List.length_pos_of_ne_nil ne
  have aligned := text.aligned
  have few := text.few
  have len := text.length_eq
  rw [List.length_append] at len aligned
  have parts := text.chars
  rw [← List.take_append_drop G.length vs, List.map_append, List.append_assoc] at parts
  obtain ⟨front, back⟩ := List.append_inj parts (by simp; omega)
  exact ⟨⟨by simpa using front, by decide, alignedG⟩, ⟨back, few, by omega⟩⟩

section
variable {c0 c1 c2 c3 : Byte} {final : Bool} {ys : List Byte}

/-- A group that decodes is a padded text of its own, and gives one byte less than values (R106). -/
theorem GroupDecodes.paddedText (decodes : GroupDecodes c0 c1 c2 c3 final ys) :
    ∃ us p, PaddedText [c0, c1, c2, c3] us p ∧ ys.length + p = 3 ∧ (0 < p → final = true) := by
  obtain ⟨us, h2, h4, chars, placed, rfl⟩ := decodes
  have len : (groupBytes (symbolGroup us)).length = 3 := rfl
  refine ⟨us, 4 - us.length, ⟨chars, by omega, Nat.mod_self 4⟩, ?_, fun padded => placed (by omega)⟩
  rw [List.length_take, len]
  omega

theorem PaddedText.groupDecodes (text : PaddedText [c0, c1, c2, c3] us p)
    (placed : 0 < p → final = true) : ∃ ys, GroupDecodes c0 c1 c2 c3 final ys := by
  have len : 4 = us.length + p := text.length_eq
  have few := text.few
  have pads : p = 4 - us.length := by omega
  exact ⟨_, us, by omega, by omega, pads ▸ text.chars, fun short => placed (by omega), rfl⟩

end

/-- What decodes is a padded text, and every value but one in four, and one for each padding
character, gives a byte. -/
theorem paddedText_of_decodeMessage {ys : List Byte} (ok : decodeMessage T = some ys) :
    ∃ vs p, PaddedText T vs p ∧ ys.length + p = 3 * (T.length / 4) := by
  induction T using group_induction generalizing ys with
  | nil =>
    cases ok
    exact ⟨[], 0, ⟨rfl, by decide, rfl⟩, rfl⟩
  | short T ne short => simp [decodeMessage_short ne short] at ok
  | group c0 c1 c2 c3 rest ih =>
    simp only [decodeMessage_group, Option.bind_eq_some_iff, Option.map_eq_some_iff] at ok
    obtain ⟨gs, block, rs, later, rfl⟩ := ok
    obtain ⟨us, q, first, bytes, placed⟩ := (decodeBlock_eq_some_iff.1 block).paddedText
    obtain ⟨vs, p, text, len⟩ := ih later
    rw [group_count, List.length_append]
    by_cases last : rest = []
    · subst last
      have empty : rs = [] := (Option.some.inj later).symm
      exact ⟨us, q, first, by simp [empty, bytes]⟩
    · have unpadded : q = 0 := by simpa [last] using placed
      subst unpadded
      exact ⟨us ++ vs, p, first.append text, by omega⟩

theorem decodeMessage_of_paddedText (text : PaddedText T vs p) :
    ∃ ys, decodeMessage T = some ys := by
  induction T using group_induction generalizing vs with
  | nil => exact ⟨[], rfl⟩
  | short T ne short =>
    have := text.aligned
    have := List.length_pos_of_ne_nil ne
    omega
  | group c0 c1 c2 c3 rest ih =>
    rw [decodeMessage_group]
    by_cases last : rest = []
    · subst last
      obtain ⟨ys, decodes⟩ := text.groupDecodes (final := true) fun _ => rfl
      exact ⟨ys ++ [], by rw [List.isEmpty_nil, decodeBlock_eq_some_iff.2 decodes]; rfl⟩
    · obtain ⟨first, later⟩ := PaddedText.split (G := [c0, c1, c2, c3]) text
        (Nat.mod_self 4) last
      obtain ⟨ys, decodes⟩ := first.groupDecodes (final := rest.isEmpty) nofun
      obtain ⟨zs, ok⟩ := ih later
      exact ⟨ys ++ zs, by rw [decodeBlock_eq_some_iff.2 decodes, ok]; rfl⟩

/-- The padding is what the text ends in, since no value has its character. -/
theorem PaddedText.trailingPads_eq (text : PaddedText T vs p) : trailingPads T = p := by
  have noPad : ((vs.map alphabetChar).reverse.takeWhile fun c => c == PAD) = [] := by
    rw [← List.map_reverse]
    cases vs.reverse with
    | nil => rfl
    | cons v _ => simp [alphabetChar_ne_pad]
  rw [trailingPads, text.chars, List.reverse_append, List.reverse_replicate,
    List.takeWhile_append_of_pos (by simp), noPad, List.append_nil, List.length_replicate]

/-- Settles O53: the padding at the end is that of the form of the text. -/
theorem decodedLength : Obligations.DecodedLength := by
  unfold Obligations.DecodedLength
  intro T ys ok
  obtain ⟨vs, p, text, len⟩ := paddedText_of_decodeMessage ok
  have few := text.few
  have aligned := text.aligned
  rw [text.trailingPads_eq]
  omega

end Sys2Proof.Machine
end

section
/-! What `DECODE` rejects, in full (spec/43_decoder.md R117): a text that meets none of the five
causes is a padded text, and the other way round; O54. -/

namespace Sys2Proof.Machine

variable {T : List Byte} {vs : List Sym} {p i : Nat} {c : Byte}

theorem exists_value_of_mem_alphabet (mem : c ∈ alphabet) : ∃ v, c = alphabetChar v := by
  obtain ⟨i, hi, rfl⟩ := List.mem_iff_getElem.1 mem
  have small : i < 64 := hi
  refine ⟨BitVec.ofNat 6 i, ?_⟩
  rw [alphabetChar, BitVec.toNat_ofNat, Nat.mod_eq_of_lt small, List.getD_eq_getElem _ _ hi]

theorem pad_at_iff : (vs.map alphabetChar ++ List.replicate p PAD)[i]? = some PAD ↔
    vs.length ≤ i ∧ i < vs.length + p := by
  by_cases front : i < vs.length
  · rw [List.getElem?_append_left (by simpa using front), List.getElem?_map,
      List.getElem?_eq_getElem front, Option.map_some, Option.some_inj]
    simp [alphabetChar_ne_pad, front]
  · rw [List.getElem?_append_right (by simpa using front), List.length_map,
      List.getElem?_replicate]
    simp only [Option.ite_none_right_eq_some, and_true]
    omega

theorem PaddedText.pad_iff (text : PaddedText T vs p) :
    T[i]? = some PAD ↔ vs.length ≤ i ∧ i < T.length := by
  rw [text.length_eq, ← pad_at_iff, ← text.chars]

theorem PaddedText.not_rejected (text : PaddedText T vs p) : ¬ Rejected T := by
  have few := text.few
  have aligned := text.aligned
  have len := text.length_eq
  rintro (bad | ⟨c, mem, foreign, noPad⟩ | ⟨i, pad, early⟩ | ⟨i, c, -, -, pad, next, noPad⟩ |
    ⟨-, last⟩)
  · exact bad aligned
  · rw [text.chars, List.mem_append, List.mem_map] at mem
    rcases mem with ⟨v, -, rfl⟩ | mem
    · exact foreign (alphabetChar_mem v)
    · exact noPad (List.eq_of_mem_replicate mem)
  · have := text.pad_iff.1 pad
    omega
  · have inside := (List.getElem?_eq_some_iff.1 next).1
    have padNext : T[i + 1]? = some PAD :=
      text.pad_iff.2 ⟨Nat.le_succ_of_le (text.pad_iff.1 pad).1, inside⟩
    exact noPad (Option.some.inj (next.symm.trans padNext))
  · have := text.pad_iff.1 (last 3 (by decide) (by decide))
    omega

/-- Where no character but the padding follows a padding character, the padding is a suffix. -/
theorem values_then_pads (known : ∀ c ∈ T, c ∈ alphabet ∨ c = PAD)
    (closed : ∀ i c, T[i]? = some PAD → T[i + 1]? = some c → c = PAD) :
    ∃ (vs : List Sym) (p : Nat), T = vs.map alphabetChar ++ List.replicate p PAD := by
  induction T with
  | nil => exact ⟨[], 0, rfl⟩
  | cons c T ih =>
    obtain ⟨vs, p, rfl⟩ := ih (fun d mem => known d (List.mem_cons_of_mem _ mem))
      fun i d pad next => closed (i + 1) d pad next
    rcases known c List.mem_cons_self with mem | rfl
    · obtain ⟨v, rfl⟩ := exists_value_of_mem_alphabet mem
      exact ⟨v :: vs, p, rfl⟩
    · cases vs with
      | nil => exact ⟨[], p + 1, rfl⟩
      | cons v vs => exact absurd (closed 0 _ rfl rfl) (alphabetChar_ne_pad v)

theorem paddedText_of_not_rejected (ok : ¬ Rejected T) : ∃ vs p, PaddedText T vs p := by
  simp only [Rejected, not_or] at ok
  obtain ⟨length, known, early, suffix, amount⟩ := ok
  have aligned : T.length % 4 = 0 := not_not.1 length
  have known' : ∀ c ∈ T, c ∈ alphabet ∨ c = PAD := fun c mem =>
    or_iff_not_imp_left.2 fun foreign => not_not.1 fun noPad => known ⟨c, mem, foreign, noPad⟩
  have closed : ∀ i c, T[i]? = some PAD → T[i + 1]? = some c → c = PAD := fun i c pad next => by
    have inside := (List.getElem?_eq_some_iff.1 next).1
    have last : ¬ i / 4 + 1 < T.length / 4 := fun h => early ⟨i, pad, h⟩
    exact not_not.1 fun noPad => suffix ⟨i, c, by omega, by omega, pad, next, noPad⟩
  obtain ⟨vs, p, chars⟩ := values_then_pads known' closed
  have len : T.length = vs.length + p := by simp [chars]
  refine ⟨vs, p, chars, Nat.le_of_not_lt fun many => amount ⟨by omega, fun k h1 h3 => ?_⟩, aligned⟩
  rw [chars, pad_at_iff, ← chars]
  omega

/-- Settles O54: the texts that decode and the texts that meet none of the causes are the padded
texts. -/
theorem decodeRejectsExactly : Obligations.DecodeRejectsExactly := by
  unfold Obligations.DecodeRejectsExactly
  intro T
  constructor
  · intro fails
    by_contra ok
    obtain ⟨vs, p, text⟩ := paddedText_of_not_rejected ok
    obtain ⟨ys, decodes⟩ := decodeMessage_of_paddedText text
    cases fails.symm.trans decodes
  · intro rejected
    rw [Option.eq_none_iff_forall_ne_some]
    intro ys decodes
    obtain ⟨vs, p, text, -⟩ := paddedText_of_decodeMessage decodes
    exact text.not_rejected rejected

end Sys2Proof.Machine
end

section
/-! A whole run of `DECODE` (spec/43_decoder.md R108 to R112, R119), by induction over the text that
is left: O47 and O48. -/

namespace Sys2Proof.Machine

/-- A `DECODE` run under `WAIT` that has written the bytes `written` and has the text `T` still to
read. -/
structure DecodeRun (s : State) (written T : List Byte) (rest : List HostAction) : Prop where
  inv : s.Inv
  busy : s.status = .busy
  mode : s.mode = .dec
  host : s.host = .wait :: rest
  left : s.pos.toNat + T.length = s.ilen.toNat
  read : s.ibuf.readMany s.pos.toNat T.length = some T
  bytes : s.obuf.readMany 0 s.olen.toNat = some written

/-- `t` is the end in `InvalidInput` of a run from `s` whose first bad group is `index` cells behind
`POS`; nothing but `POS` differs from the raise in `s` (R119, R124). -/
structure RunFail (s t : State) (index : Nat) : Prop where
  frame : t = { raiseInvalidInput s with pos := t.pos }
  pos : t.pos.toNat = s.pos.toNat + index

variable {s : State} {written T later ys : List Byte} {c0 c1 c2 c3 : Byte} {rest : List HostAction}

theorem firstBadGroup_of_none (bad : decodeBlock c0 c1 c2 c3 later.isEmpty = none) :
    firstBadGroup (c0 :: c1 :: c2 :: c3 :: later) = some 0 := by
  rw [firstBadGroup, bad]

theorem firstBadGroup_of_some (ok : decodeBlock c0 c1 c2 c3 later.isEmpty = some ys) :
    firstBadGroup (c0 :: c1 :: c2 :: c3 :: later) = (firstBadGroup later).map (· + 4) := by
  rw [firstBadGroup, ok]

namespace DecodeRun

/-- The accept step begins the run with the whole text to read, if its length is admitted. -/
theorem accept {len : Len} (h : s.Inv) (fits : len.toNat ≤ s.cfg.maxLen)
    (aligned : len.toNat % 4 = 0) (loaded : s.ibuf.readMany 0 len.toNat = some T) :
    DecodeRun (acceptMessage .dec len (s.withHost (.wait :: rest))) [] T rest := by
  have len_eq := readMany_length loaded
  exact
    { inv := acceptMessage_inv (withHost_inv h _) fits fun _ => aligned
      busy := rfl
      mode := rfl
      host := rfl
      left := (Nat.zero_add _).trans len_eq
      read := by rw [len_eq]; exact loaded
      bytes := rfl }

theorem aligned (run : DecodeRun s written T rest) : T.length % 4 = 0 := by
  obtain ⟨ilen, pos, -⟩ := (phaseInv_busy_dec run.busy run.mode).1 run.inv.phase
  have left := run.left
  omega

theorem finish (run : DecodeRun s written [] rest) :
    step s = .next (finishRun s) ∧ RunEnd s (finishRun s) written := by
  have done : s.pos = s.ilen := BitVec.eq_of_toNat_eq run.left
  refine ⟨(step_waiting run.busy run.host).trans (sequencerStep_finish done), ?_, run.bytes⟩
  exact congrArg (fun pos => { finishRun s with pos }) done

section
variable (run : DecodeRun s written (c0 :: c1 :: c2 :: c3 :: later) rest)
include run

theorem more : s.pos.toNat < s.ilen.toNat := by
  have left := run.left
  simp only [List.length_cons] at left
  omega

theorem read_split : s.ibuf.readMany s.pos.toNat 4 = some [c0, c1, c2, c3] ∧
    s.ibuf.readMany (s.pos.toNat + 4) later.length = some later := by
  refine readMany_append (xs := [c0, c1, c2, c3]).1 ?_
  rw [Nat.add_comm]
  exact run.read

/-- The group is the final one when nothing is left behind it. -/
theorem finalGroup_eq : finalGroup s = later.isEmpty := by
  have left := run.left
  simp only [List.length_cons] at left
  rw [finalGroup, Bool.eq_iff_iff, beq_iff_eq, List.isEmpty_iff_length_eq_zero]
  omega

theorem raises (bad : decodeBlock c0 c1 c2 c3 later.isEmpty = none) :
    step s = .next (raiseInvalidInput s) :=
  (step_waiting run.busy run.host).trans
    (sequencerStep_raiseInvalidInput run.inv run.busy run.mode run.more run.read_split.1
      (run.finalGroup_eq ▸ bad))

/-- A block step decodes the first group and goes on with the rest. -/
theorem block (ok : decodeBlock c0 c1 c2 c3 later.isEmpty = some ys) :
    step s = .next (afterDecodeBlock s ys) ∧
      DecodeRun (afterDecodeBlock s ys) (written ++ ys) later rest := by
  rw [← run.finalGroup_eq] at ok
  obtain ⟨first, others⟩ := run.read_split
  have inside := group_of_decodeBlock run.inv run.busy run.mode run.more
  obtain ⟨room, step⟩ :=
    sequencerStep_afterDecodeBlock run.inv run.busy run.mode run.more first ok
  have pos := afterDecodeBlock_pos_toNat ys inside
  refine ⟨(step_waiting run.busy run.host).trans step, ?_⟩
  exact
    { inv := afterDecodeBlock_inv run.inv run.busy run.mode inside ok room
      busy := run.busy
      mode := run.mode
      host := run.host
      left := by
        have left := run.left
        rw [pos]
        simp only [List.length_cons] at left
        change _ = s.ilen.toNat
        omega
      read := by
        rw [pos]
        exact others
      bytes := by
        rw [afterDecodeBlock_olen_toNat _ run.inv.legal room]
        exact readMany_writeMany_append run.bytes ys }

end

/-- A run over a text that decodes takes its block steps and the finish step, and appends the
bytes. -/
theorem ends (run : DecodeRun s written T rest) (ok : decodeMessage T = some ys) :
    ∃ t, steps (T.length / 4 + 1) s = .next t ∧ RunEnd s t (written ++ ys) := by
  induction T using group_induction generalizing s written ys with
  | nil =>
    cases ok
    obtain ⟨last, fin⟩ := run.finish
    exact ⟨_, steps_succ 0 last, by rwa [List.append_nil]⟩
  | short T ne short => simp [decodeMessage_short ne short] at ok
  | group c0 c1 c2 c3 later ih =>
    simp only [decodeMessage_group, Option.bind_eq_some_iff, Option.map_eq_some_iff] at ok
    obtain ⟨gs, good, rs, okLater, rfl⟩ := ok
    obtain ⟨first, go⟩ := run.block good
    obtain ⟨t, others, frame, bytes⟩ := ih go okLater
    refine ⟨t, ?_, frame, ?_⟩
    · rw [group_count, steps_succ _ first, others]
    · rwa [← List.append_assoc]

/-- A run over a text that does not decode raises at the first group that does not. -/
theorem fails (run : DecodeRun s written T rest) (bad : decodeMessage T = none) :
    ∃ t index, firstBadGroup T = some index ∧ steps (index / 4 + 1) s = .next t ∧
      RunFail s t index := by
  induction T using group_induction generalizing s written with
  | nil => cases bad
  | short T ne short =>
    have := run.aligned
    have := List.length_pos_of_ne_nil ne
    omega
  | group c0 c1 c2 c3 later ih =>
    cases block : decodeBlock c0 c1 c2 c3 later.isEmpty with
    | none => exact ⟨_, 0, firstBadGroup_of_none block, steps_succ 0 (run.raises block), rfl, rfl⟩
    | some ys =>
      have badLater : decodeMessage later = none := by
        simpa [decodeMessage_group, block] using bad
      obtain ⟨first, go⟩ := run.block block
      obtain ⟨t, index, found, others, frame, pos⟩ := ih go badLater
      have inside := group_of_decodeBlock run.inv run.busy run.mode run.more
      refine ⟨t, index + 4, by rw [firstBadGroup_of_some block, found]; rfl, ?_, frame, ?_⟩
      · rw [Nat.add_div_right _ (by decide), steps_succ _ first, others]
      · rw [pos, afterDecodeBlock_pos_toNat ys inside]
        omega

end DecodeRun

/-- Settles O47: a text that decodes has an admitted length, so that the accept step begins a run
with the whole text to read. -/
theorem decodeRunEndsInTheClosedForm : Obligations.DecodeRunEndsInTheClosedForm := by
  unfold Obligations.DecodeRunEndsInTheClosedForm
  intro s len T ys rest h free fits loaded ok hh
  rw [← decodeMessage_eq_byGroups] at ok
  obtain ⟨vs, p, text, -⟩ := paddedText_of_decodeMessage ok
  have aligned : len.toNat % 4 = 0 := readMany_length loaded ▸ text.aligned
  obtain ⟨t, others, frame, bytes⟩ :=
    (DecodeRun.accept (rest := rest) h fits aligned loaded).ends ok
  have first := step_presents (i := .decode len) rfl fits free hh
  rw [effectOf, acceptDecode_of_aligned aligned] at first
  rw [readMany_length loaded] at others
  exact ⟨t, (steps_succ _ first).trans others, congrArg State.status frame,
    congrArg State.mode frame, congrArg State.ilen frame, congrArg State.pos frame,
    (readMany_length bytes).symm, bytes, congrArg State.reply frame,
    (congrArg State.ibuf frame :), (congrArg State.cfg frame :), congrArg State.host frame⟩

/-- Settles O48: a bad length is raised by the accept step, and a bad group by its block step. -/
theorem decodeRunEndsInInvalidInput : Obligations.DecodeRunEndsInInvalidInput := by
  unfold Obligations.DecodeRunEndsInInvalidInput
  intro s len T rest h free fits loaded bad hh
  rw [← decodeMessage_eq_byGroups] at bad
  have first := step_presents (i := .decode len) rfl fits free hh
  by_cases aligned : len.toNat % 4 = 0
  · obtain ⟨t, index, found, others, frame, pos⟩ :=
      (DecodeRun.accept (rest := rest) h fits aligned loaded).fails bad
    rw [effectOf, acceptDecode_of_aligned aligned] at first
    have index_eq : t.pos.toNat = index := pos.trans (Nat.zero_add _)
    have olen : t.olen = 0 := congrArg State.olen frame
    have obuf : t.obuf = [] := congrArg State.obuf frame
    exact ⟨t, index / 4 + 1 + 1, (steps_succ _ first).trans others, congrArg State.status frame,
      congrArg State.mode frame, congrArg State.ilen frame, olen, fun a => obuf ▸ read_nil a,
      congrArg State.reply frame, (congrArg State.ibuf frame :), (congrArg State.cfg frame :),
      congrArg State.host frame, fun no => absurd aligned no,
      fun _ => ⟨index_eq ▸ found, by rw [index_eq]⟩⟩
  · rw [effectOf, acceptDecode_of_bad_length aligned] at first
    exact ⟨_, 1, steps_succ 0 first, rfl, rfl, rfl, rfl, read_nil, rfl, rfl, rfl, rfl,
      fun _ => ⟨rfl, rfl⟩, fun yes => absurd yes aligned⟩

end Sys2Proof.Machine
end

section
/-! The round trip through the buffers (spec/43_decoder.md R114): O56. A run is the same whether the
host waits for its end or has no move to make, so that the whole runs under `WAIT` serve here. -/

namespace Sys2Proof.Machine

variable {s t u : State} {k l : Nat} {rest : List HostAction}

/-! ## Several steps -/

theorem steps_succ_next (go : steps (k + 1) s = .next t) :
    ∃ u, step s = .next u ∧ steps k u = .next t := by
  cases first : step s with
  | next u => exact ⟨u, rfl, (steps_succ k first).symm.trans go⟩
  | fault f => simp [steps, Host.Core.run, show core.step s = .fault f from first] at go
  | refused r => simp [steps, Host.Core.run, show core.step s = .refused r from first] at go

theorem steps_inv (h : s.Inv) (go : steps k s = .next t) : t.Inv := by
  induction k generalizing s with
  | zero => cases go; exact h
  | succ k ih =>
    obtain ⟨u, first, later⟩ := steps_succ_next go
    exact ih ((step_next first).inv h) later

theorem steps_add (go : steps k s = .next t) : steps (k + l) s = steps l t := by
  induction k generalizing s with
  | zero => cases go; rw [Nat.zero_add]
  | succ k ih =>
    obtain ⟨u, first, later⟩ := steps_succ_next go
    rw [Nat.add_right_comm, steps_succ _ first, ih later]

/-- The moves of `HLOAD` are made, whatever moves are left after them (`steps_loadMoves` has none
left). -/
theorem steps_loadMoves_append {a : Nat} {bs : List Byte} (free : s.status ≠ .busy)
    (fits : a + bs.length ≤ s.cfg.maxLen) :
    steps bs.length (s.withHost (loadMoves a bs ++ rest)) =
      .next ((afterLoad s a bs).withHost rest) := by
  induction bs generalizing s a with
  | nil => rfl
  | cons b bs ih =>
    rw [List.length_cons] at fits ⊢
    have first : step (s.withHost (loadMoves a (b :: bs) ++ rest)) =
        .next ((afterLoad s a [b]).withHost (loadMoves (a + 1) bs ++ rest)) :=
      (step_of_move rfl).trans
        (hostWrite_inside (s := s.withHost (loadMoves (a + 1) bs ++ rest)) free
          (show a < s.cfg.maxLen by omega) b)
    have room : a + 1 + bs.length ≤ (afterLoad s a [b]).cfg.maxLen :=
      show a + 1 + bs.length ≤ s.cfg.maxLen by omega
    rw [steps_succ _ first, ih (s := afterLoad s a [b]) free room, afterLoad_cons]

/-! ## A run without `WAIT` -/

/-- A run does not look at the host's moves. -/
theorem RunStep.withHost (go : RunStep s t) (moves : List HostAction) :
    RunStep (s.withHost moves) (t.withHost moves) := by
  cases go with
  | encodeBlock bs mode more read room =>
    exact .encodeBlock (s := s.withHost moves) bs mode more read room
  | decodeBlock cs ys mode more read ok room =>
    exact .decodeBlock (s := s.withHost moves) cs ys mode more read ok room
  | invalidInput cs mode more read bad =>
    exact .invalidInput (s := s.withHost moves) cs mode more read bad
  | finish done => exact .finish (s := s.withHost moves) done

/-- Each of the steps that `RunStep` lists is taken: `sequencerStep_next` the other way round. -/
theorem RunStep.taken (go : RunStep s t) : sequencerStep s = .next t := by
  cases go with
  | encodeBlock bs mode more read room =>
    exact (sequencerStep_encodeBlock mode more).trans (encodeBlockStep_of more read room)
  | decodeBlock cs ys mode more read ok room =>
    exact (sequencerStep_decodeBlock mode (by omega)).trans
      (decodeBlockStep_of_some more read ok room)
  | invalidInput cs mode more read bad =>
    exact (sequencerStep_decodeBlock mode (by omega)).trans (decodeBlockStep_of_none more read bad)
  | finish done => exact sequencerStep_finish done

theorem RunStep.host_eq (go : RunStep s t) : t.host = s.host := by
  cases go with
  | encodeBlock => rfl
  | decodeBlock => rfl
  | invalidInput => rfl
  | finish => rfl

/-- With no run in progress and no move to make, the host's list stays empty. -/
theorem steps_at_rest (free : s.status ≠ .busy) (hh : s.host = []) (go : steps k s = .next t) :
    t.host = [] := by
  induction k generalizing s with
  | zero => cases go; exact hh
  | succ k ih =>
    rw [steps_succ k ((step_of_no_move hh).trans (unattendedStep_free free))] at go
    exact ih (s := silent s) free hh go

/-- While the host still waits, the steps are those of a host with no move to make. -/
theorem steps_without_wait (hh : s.host = [.wait]) (go : steps k s = .next t)
    (waits : t.host = [.wait]) : steps k (s.withHost []) = .next (t.withHost []) := by
  induction k generalizing s with
  | zero => cases go; rfl
  | succ k ih =>
    obtain ⟨u, first, later⟩ := steps_succ_next go
    by_cases busy : s.status = .busy
    · have run : RunStep s u := sequencerStep_next ((step_waiting busy hh).symm.trans first)
      have alone : step (s.withHost []) = .next (u.withHost []) :=
        ((step_of_no_move rfl).trans (unattendedStep_busy (s := s.withHost []) busy)).trans
          (run.withHost []).taken
      rw [steps_succ k alone]
      exact ih (run.host_eq.trans hh) later
    · rw [step_of_move hh] at first
      cases first.symm.trans (hostWait_free busy)
      rw [steps_at_rest (s := deliverRegisters (s.withHost [])) busy rfl later] at waits
      cases waits

theorem effectOf_withHost (i : Instr) (s : State) (moves : List HostAction) :
    effectOf i (s.withHost moves) = (effectOf i s).withHost moves := by
  cases i with
  | decode len =>
    simp only [effectOf, acceptDecode]
    split <;> rfl
  | _ => rfl

/-- A command that is presented under `WAIT` does the same without it. -/
theorem steps_command_without_wait {i : Instr} (wf : i.wf = true)
    (fits : messageLength i ≤ s.cfg.maxLen) (free : s.status ≠ .busy)
    (go : steps (k + 1) (s.withHost [.present (encode i), .wait]) = .next t)
    (waits : t.host = [.wait]) :
    steps (k + 1) (s.withHost [.present (encode i)]) = .next (t.withHost []) := by
  have first (moves : List HostAction) : step (s.withHost (.present (encode i) :: moves)) =
      .next ((effectOf i s).withHost moves) :=
    (step_presents (s := s.withHost (.present (encode i) :: moves)) wf fits free rfl).trans
      (congrArg _ (effectOf_withHost i s moves))
  rw [steps_succ k (first _)] at go ⊢
  exact steps_without_wait (s := (effectOf i s).withHost [.wait]) rfl go waits

/-- Settles O56: the text that the `ENCODE` run ends in decodes to the message, and the copy puts it
where the `DECODE` run reads. -/
theorem roundTripThroughTheBuffers : Obligations.RoundTripThroughTheBuffers := by
  unfold Obligations.RoundTripThroughTheBuffers
  intro s len B h free fits fitsText loaded
  obtain ⟨t, encodes, statusT, -, -, -, olenT, text, -, -, cfgT, hostT⟩ :=
    encodeRunEndsInTheClosedForm (s.withHost [.present (encode (.encode len)), .wait]) len B []
      (withHost_inv h _) free fits loaded rfl
  have invT : t.Inv := steps_inv (withHost_inv h _) encodes
  have freeT : t.status ≠ .busy := by simp [statusT]
  have lenT : (encodeByGroups B).length = t.olen.toNat := readMany_length text
  have fitsT : t.olen.toNat ≤ t.cfg.maxLen := by rw [olenT, cfgT]; exact fitsText
  have copies (moves : List HostAction) :=
    steps_loadMoves_append (s := t) (a := 0) (bs := encodeByGroups B) (rest := moves) freeT
      (by omega)
  have decodes : decodeByGroups (encodeByGroups B) = some B := by
    rw [← encodeMessage_eq_byGroups, ← decodeMessage_eq_byGroups, decodeMessage_encodeMessage]
  have copied : (t.ibuf.writeMany 0 (encodeByGroups B)).readMany 0 t.olen.toNat =
      some (encodeByGroups B) := lenT ▸ readMany_writeMany _ _ _
  obtain ⟨v, decoded, statusV, -, -, -, olenV, bytes, -, -, -, hostV⟩ :=
    decodeRunEndsInTheClosedForm
      ((afterLoad t 0 (encodeByGroups B)).withHost [.present (encode (.decode t.olen)), .wait])
      t.olen (encodeByGroups B) B [] (steps_inv (withHost_inv invT _) (copies _)) freeT fitsT copied
      decodes rfl
  refine ⟨t.withHost [], encodeByGroups B,
    steps_command_without_wait (i := .encode len) rfl fits free encodes hostT, statusT, text,
    v.withHost [], ?_, statusV, BitVec.eq_of_toNat_eq (olenV.trans (readMany_length loaded)), bytes⟩
  exact (steps_add (copies _)).trans
    (steps_command_without_wait (i := .decode t.olen) rfl fitsT freeT decoded hostV)

end Sys2Proof.Machine
end

section
/-! What `InvalidInput` leaves, and which steps raise it (spec/60_exceptions.md R120, R124): O40.
Both origins are `raiseInvalidInput` of a state of a `DECODE`: one just accepted, or one of a run. -/

namespace Sys2Proof.Machine

variable {s t : State}

/-- What a step into `DONE_ERR` leaves, when the buffer held `ibuf` before it (R124). -/
structure RaisedInvalidInput (ibuf : Memory) (t : State) : Prop where
  mode : t.mode = .dec
  olen : t.olen = 0
  obuf : t.obuf = []
  ibuf : t.ibuf = ibuf
  status : t.status = .doneErr
  reply : t.reply = some (.result .fail)

theorem raiseInvalidInput_raised (mode : s.mode = .dec) :
    RaisedInvalidInput s.ibuf (raiseInvalidInput s) where
  mode := mode
  olen := raiseInvalidInput_olen s
  obuf := raiseInvalidInput_obuf s
  ibuf := raiseInvalidInput_ibuf s
  status := raiseInvalidInput_status s
  reply := raiseInvalidInput_reply s

/-- Of the steps of a run only the one on a bad group of `DECODE` newly ends in `DONE_ERR`. -/
theorem RunStep.raised (go : RunStep s t) (err : t.status = .doneErr) (new : s.status ≠ .doneErr) :
    RaisedInvalidInput s.ibuf t ∧ s.mode = .dec ∧ s.pos.toNat < s.ilen.toNat := by
  cases go with
  | invalidInput cs mode more => exact ⟨raiseInvalidInput_raised mode, mode, by omega⟩
  | encodeBlock => exact absurd err new
  | decodeBlock => exact absurd err new
  | finish => simp at err

/-- Of the commands only `DECODE` newly ends in `DONE_ERR`, on a length that 4 does not divide. -/
theorem CommandEffect.raised {i : Instr} (eff : CommandEffect i s t) (err : t.status = .doneErr)
    (new : s.status ≠ .doneErr) :
    RaisedInvalidInput s.ibuf t ∧ ∃ len, i = .decode len ∧ len.toNat % 4 ≠ 0 := by
  cases eff with
  | pure r => exact absurd err new
  | encode => simp at err
  | decode len cmd =>
    by_cases aligned : len.toNat % 4 = 0
    · simp [acceptDecode_of_aligned aligned] at err
    · rw [acceptDecode_of_bad_length aligned]
      exact ⟨raiseInvalidInput_raised (acceptMessage_mode s .dec len), len, cmd, aligned⟩

/-- Settles O40: of the kinds of step, a step of a run and a command alone can newly end in
`DONE_ERR`, the one on a bad group and the other on a bad length. -/
theorem onlyDecodeRaisesInvalidInput : Obligations.OnlyDecodeRaisesInvalidInput := by
  unfold Obligations.OnlyDecodeRaisesInvalidInput
  intro s t hstep err new
  refine (?origin : RaisedInvalidInput s.ibuf t ∧ _).elim fun raised origin =>
    ⟨raised.mode, raised.olen, raised.obuf, raised.ibuf, congrArg Status.code raised.status,
      raised.reply, rfl, origin⟩
  cases step_next hstep with
  | run rest t busy _ go =>
    obtain ⟨raised, mode, more⟩ := go.raised err new
    exact ⟨raised, .inr ⟨busy, mode, more⟩⟩
  | command cw i rest t next dec _ _ _ eff =>
    obtain ⟨raised, len, rfl, bad⟩ := eff.raised err new
    exact ⟨raised, .inl ⟨cw, len, rest, next, dec, bad⟩⟩
  | reset => simp at err
  | still => exact absurd err new
  | write => exact absurd err new
  | read => exact absurd err new
  | registers => exact absurd err new

end Sys2Proof.Machine
end

section
/-! A message that is not wholly written (spec/70_reset_and_hazards.md R144), and reset in any state
(R140): O28 and O33. The invariant puts the group inside the message, so the block step gets as far as
its cells and `readPastMessage` cannot come before `unwrittenCell`. -/

namespace Sys2Proof.Machine

variable {s : State}

theorem readMessage_of_unwritten {n : Nat} (inside : s.pos.toNat + n ≤ s.ilen.toNat)
    (unwritten : s.ibuf.readMany s.pos.toNat n = none) :
    readMessage n s = .error .unwrittenCell := by
  rw [readMessage, if_pos inside, unwritten]

theorem encodeBlockStep_of_unwritten (more : s.pos.toNat < s.ilen.toNat)
    (unwritten : s.ibuf.readMany s.pos.toNat (encodeCount s) = none) :
    encodeBlockStep s = .fault .unwrittenCell := by
  simp only [encodeBlockStep, readMessage_of_unwritten (encodeCount_inside more) unwritten]

theorem decodeBlockStep_of_unwritten (inside : s.pos.toNat + 4 ≤ s.ilen.toNat)
    (unwritten : s.ibuf.readMany s.pos.toNat 4 = none) :
    decodeBlockStep s = .fault .unwrittenCell := by
  simp only [decodeBlockStep, readMessage_of_unwritten inside unwritten]

/-- Settles O28: in either mode the group lies inside the message, so reading it meets the unwritten
cell. -/
theorem unwrittenCellIsNeverRead : Obligations.UnwrittenCellIsNeverRead := by
  unfold Obligations.UnwrittenCellIsNeverRead
  intro s h busy more unwritten
  cases mode : s.mode with
  | enc =>
    rw [mode] at unwritten
    exact (sequencerStep_encodeBlock mode more).trans (encodeBlockStep_of_unwritten more unwritten)
  | dec =>
    rw [mode] at unwritten
    have inside := group_of_decodeBlock h busy mode more
    exact (sequencerStep_decodeBlock mode more).trans (decodeBlockStep_of_unwritten inside unwritten)

/-- Settles O33: whatever the state, the step ends in `resetBlock`, whose buffers list no cell. -/
theorem resetFromAnyState : Obligations.ResetFromAnyState := by
  unfold Obligations.ResetFromAnyState
  intro s rest hh
  exact ⟨resetBlock (s.withHost rest), step_of_move hh, rfl, rfl, rfl, rfl, rfl, read_nil, read_nil,
    rfl, rfl, rfl⟩

end Sys2Proof.Machine
end
